-- ==== Sys2Proof/Word.lean ====
section
/-! DEFINITION. The word types of the block: data bytes, 16-bit words and 32-bit registers
(00_scope.md R12). -/

namespace Sys2Proof

/-- A data byte: 8 bits, unsigned (R12). -/
abbrev Byte := BitVec 8

/-- A command word, a sequence number, a checksum or a length register (R12, R80). -/
abbrev Word := BitVec 16

/-- A link statistics counter, `DEC_LEN`, or a register as the host reads it (R12, R46). -/
abbrev Reg32 := BitVec 32

end Sys2Proof
end

