-- ==== Sys2Proof/Syntax.lean ====
section
/-! DEFINITION. The instructions: one constructor per row of spec/opcode_table.json. The first
thirteen are the commands of the command port (30_encoding.md R82), the last six the code-byte
classes of the stuffed stream (R90, R92). -/

namespace Sys2Proof

/-- An instruction. A command that ignores its immediate (R81) carries no operand. A code-byte
class carries the count that its code byte selects (R90). -/
inductive Instr where
  /-- `NOP` (R230). -/
  | nop
  /-- `ENC_START` (R115). -/
  | encStart
  /-- `ENC_FEED imm` (R116). -/
  | encFeed (imm : Byte)
  /-- `ENC_FINISH` (R117). -/
  | encFinish
  /-- `DEC_START` (R145). -/
  | decStart
  /-- `DEC_FEED imm` (R146). -/
  | decFeed (imm : Byte)
  /-- `DEC_FINISH` (R147). -/
  | decFinish
  /-- `CKS_INIT` (R172). -/
  | cksInit
  /-- `CKS_FEED imm` (R173). -/
  | cksFeed (imm : Byte)
  /-- `TX_BEGIN` (R190). -/
  | txBegin
  /-- `TX_PUSH imm` (R191). -/
  | txPush (imm : Byte)
  /-- `TX_SEND` (R192). -/
  | txSend
  /-- `RX_BYTE imm` (R210). -/
  | rxByte (imm : Byte)
  /-- Code byte 0x00 (R90, R141 (a)). -/
  | codeIllegal
  /-- Code bytes 0x01 to 0xD0: literals, then one zero (R90). -/
  | codeDataZ1 (literals : Nat)
  /-- Code byte 0xD1: 208 literals, no zero (R90). -/
  | codeDataMax
  /-- Code byte 0xD2 (R90, R141 (a)). -/
  | codeReserved
  /-- Code bytes 0xD3 to 0xDF: zeros only (R90). -/
  | codeZrun (zeros : Nat)
  /-- Code bytes 0xE0 to 0xFF: literals, then two zeros (R90). -/
  | codeDataZ2 (literals : Nat)
deriving DecidableEq, Repr

end Sys2Proof
end

