-- ==== Sys2Proof/WellFormed.lean ====
section
/-! DEFINITION. Which instructions have an encoding: the counts of the code-byte classes stay in
the ranges of 30_encoding.md R90. Every byte is a legal immediate (R81). -/

namespace Sys2Proof

/-- The counts of R90's table: 0 to 207 literals before one zero, 3 to 15 zeros in a run, 0 to 31
literals before two zeros. -/
def Instr.wellFormed (i : Instr) : Bool :=
  match i with
  | .nop => true
  | .encStart => true
  | .encFeed _ => true
  | .encFinish => true
  | .decStart => true
  | .decFeed _ => true
  | .decFinish => true
  | .cksInit => true
  | .cksFeed _ => true
  | .txBegin => true
  | .txPush _ => true
  | .txSend => true
  | .rxByte _ => true
  | .codeIllegal => true
  | .codeDataZ1 literals => decide (literals ≤ 207)
  | .codeDataMax => true
  | .codeReserved => true
  | .codeZrun zeros => decide (3 ≤ zeros ∧ zeros ≤ 15)
  | .codeDataZ2 literals => decide (literals ≤ 31)

end Sys2Proof
end

