-- ==== Sys2Proof/Decode.lean ====
section
/-! DEFINITION. Decoding and encoding of the two languages of 30_encoding.md: 16-bit command words
(R80 to R84) and 8-bit code bytes (R89 to R91). -/

namespace Sys2Proof

/-- Why a word is no instruction of the table. Raised by `decodeCommand`; the step answers it with
the ILLEGAL behaviour of 45_control.md R231, so it stops nothing. -/
inductive Reject where
  /-- The opcode is one of the 243 unassigned values of R83. -/
  | unassignedOpcode (op : Byte)
deriving DecidableEq, Repr

/-- An encoded instruction: a command word, or a code byte. -/
inductive Encoded where
  | command (word : Word)
  | codeByte (code : Byte)
deriving DecidableEq, Repr

/-- The field `op`, bits 15:8 of a command word (R80). -/
def opField (w : Word) : Byte := w.extractLsb' 8 8

/-- The field `imm`, bits 7:0 of a command word, used as it is (R80, R81). -/
def immField (w : Word) : Byte := w.extractLsb' 0 8

/-- A command word from its two fields (R80). -/
def commandWord (op imm : Byte) : Word := op ++ imm

/-- The row that an opcode selects, by `op` alone (R82); every other opcode is unassigned (R83). -/
def decodeFields (op imm : Byte) : Except Reject Instr :=
  match op with
  | 0x00#8 => .ok .nop
  | 0x10#8 => .ok .encStart
  | 0x11#8 => .ok (.encFeed imm)
  | 0x12#8 => .ok .encFinish
  | 0x20#8 => .ok .decStart
  | 0x21#8 => .ok (.decFeed imm)
  | 0x22#8 => .ok .decFinish
  | 0x30#8 => .ok .cksInit
  | 0x31#8 => .ok (.cksFeed imm)
  | 0x40#8 => .ok .txBegin
  | 0x41#8 => .ok (.txPush imm)
  | 0x42#8 => .ok .txSend
  | 0x50#8 => .ok (.rxByte imm)
  | other => .error (.unassignedOpcode other)

/-- The instruction of a command word (R80, R82 to R84). -/
def decodeCommand (w : Word) : Except Reject Instr := decodeFields (opField w) (immField w)

/-- The class of a code byte, with its count (R90). Every byte has one. -/
def decodeCodeByte (c : Byte) : Instr :=
  if c.toNat = 0x00 then .codeIllegal
  else if c.toNat ≤ 0xD0 then .codeDataZ1 (c.toNat - 1)
  else if c.toNat = 0xD1 then .codeDataMax
  else if c.toNat = 0xD2 then .codeReserved
  else if c.toNat ≤ 0xDF then .codeZrun (c.toNat - 0xD0)
  else .codeDataZ2 (c.toNat - 0xE0)

/-- The instruction of an encoded one; only an unassigned opcode is rejected (R84). -/
def decode (e : Encoded) : Except Reject Instr :=
  match e with
  | .command w => decodeCommand w
  | .codeByte c => .ok (decodeCodeByte c)

/-- The encoding of an instruction. A command without an operand has `imm` = 0x00, as an assembler
writes it (R81). A code byte is the one that R90's table gives for the count. -/
def encode (i : Instr) : Encoded :=
  match i with
  | .nop => .command (commandWord 0x00 0x00)
  | .encStart => .command (commandWord 0x10 0x00)
  | .encFeed imm => .command (commandWord 0x11 imm)
  | .encFinish => .command (commandWord 0x12 0x00)
  | .decStart => .command (commandWord 0x20 0x00)
  | .decFeed imm => .command (commandWord 0x21 imm)
  | .decFinish => .command (commandWord 0x22 0x00)
  | .cksInit => .command (commandWord 0x30 0x00)
  | .cksFeed imm => .command (commandWord 0x31 imm)
  | .txBegin => .command (commandWord 0x40 0x00)
  | .txPush imm => .command (commandWord 0x41 imm)
  | .txSend => .command (commandWord 0x42 0x00)
  | .rxByte imm => .command (commandWord 0x50 imm)
  | .codeIllegal => .codeByte 0x00
  | .codeDataZ1 literals => .codeByte (BitVec.ofNat 8 (literals + 1))
  | .codeDataMax => .codeByte 0xD1
  | .codeReserved => .codeByte 0xD2
  | .codeZrun zeros => .codeByte (BitVec.ofNat 8 (0xD0 + zeros))
  | .codeDataZ2 literals => .codeByte (BitVec.ofNat 8 (0xE0 + literals))

/-- The name the opcode table and the assembler give an instruction (R82, R90). -/
def mnemonicOf (i : Instr) : String :=
  match i with
  | .nop => "NOP"
  | .encStart => "ENC_START"
  | .encFeed _ => "ENC_FEED"
  | .encFinish => "ENC_FINISH"
  | .decStart => "DEC_START"
  | .decFeed _ => "DEC_FEED"
  | .decFinish => "DEC_FINISH"
  | .cksInit => "CKS_INIT"
  | .cksFeed _ => "CKS_FEED"
  | .txBegin => "TX_BEGIN"
  | .txPush _ => "TX_PUSH"
  | .txSend => "TX_SEND"
  | .rxByte _ => "RX_BYTE"
  | .codeIllegal => "CODE_ILLEGAL"
  | .codeDataZ1 _ => "CODE_DATA_Z1"
  | .codeDataMax => "CODE_DATA_MAX"
  | .codeReserved => "CODE_RESERVED"
  | .codeZrun _ => "CODE_ZRUN"
  | .codeDataZ2 _ => "CODE_DATA_Z2"

/-- The instruction read from `w`, numbered as the opcode table numbers its bits: a code byte for
rows of 8 bits, a command word for rows of 16 bits. The table has no other width. -/
def decodeTableWord (nbits w : Nat) : Option Instr :=
  if nbits = 8 then some (decodeCodeByte (BitVec.ofNat 8 w))
  else if nbits = 16 then
    match decodeCommand (BitVec.ofNat 16 w) with
    | .ok i => some i
    | .error _ => none
  else none

end Sys2Proof
end

