-- ==== Sys2Proof/Config.lean ====
section
/-! DEFINITION. What an implementation fixes: the parameters of 00_scope.md R6 to R10, the fixed
codec constants of R7 and R8, and the constants the spec leaves open (CKS_ALG, HOST_MAP and the
contents of unwritten buffer bytes), which have no value here. -/

namespace Sys2Proof

/-- `OVH`: the sequence number and the checksum, two bytes each (R7). -/
def Config.ovh : Nat := 4

/-- `RUN_MAX`: the literals of one DATA_MAX block (R8). -/
def Config.runMax : Nat := 208

/-- The shortest zero run one code byte carries (R8). -/
def Config.zeroRunMin : Nat := 3

/-- The longest zero run one code byte carries (R8). -/
def Config.zeroRunMax : Nat := 15

/-- The most literals of a pair block (R8). -/
def Config.pairMax : Nat := 31

/-- `CKS_INIT_VAL` of the OPEN parameter `CKS_ALG` (R10). It has no value here: a claim about it
holds for every value. Assumption log 8. -/
opaque Config.cksInitVal : Word

/-- `cks_step` of the OPEN parameter `CKS_ALG` (R10). It has no value here: a claim about it holds
for every function. Assumption log 8. -/
opaque Config.cksStep : Word → Byte → Word

/-- The four internal byte buffers (20_memory.md R60). -/
inductive BufferId where
  | encOut
  | decOut
  | txPay
  | rxBuf
deriving DecidableEq, Repr

/-- An address of the block's own map (20_memory.md R62): a register number, or an index of one of
the two host-readable buffers. -/
inductive HostAddr where
  | register (number : Byte)
  | encOut (index : Nat)
  | decOut (index : Nat)
deriving DecidableEq, Repr

/-- `HOST_MAP`: where the platform places the three spaces of R62. OPEN; no rule depends on it.
Assumption log 13. -/
opaque Config.hostMap : Nat → Option HostAddr

/-- The free value of a buffer byte that nothing has written, should the block itself read one
(93_implementation_defined.md U4: "any value"). No reachable state makes such a read. Assumption
log 7. -/
opaque Config.unwrittenByte : BufferId → Nat → Byte

/-- Which checksum algorithm the block has: the OPEN parameter of R10, or the reference instance
that R176 gives for test vectors. Assumption log 8. -/
inductive CksAlg where
  | openParameter
  | refCrc
deriving DecidableEq, Repr

/-- `CKS_INIT_VAL` of an algorithm (R10; R176 for REF_CRC). -/
def CksAlg.initVal (alg : CksAlg) : Word :=
  match alg with
  | .openParameter => Config.cksInitVal
  | .refCrc => 0xFFFF

/-- The parameters of one block. No step changes them (42_checksum.md R171 (P1), 00_scope.md R2). -/
structure Params where
  /-- `MAX_MSG` (R6). -/
  maxMsg : Nat
  /-- `ENC_CAP` (R9). -/
  encCap : Nat
  /-- `DEC_CAP` (R9). -/
  decCap : Nat
  /-- `RXBUF_SIZE` (R9). -/
  rxbufSize : Nat
  /-- `CKS_ALG` (R10). -/
  cksAlg : CksAlg
deriving DecidableEq, Repr

/-- The default values of R6 and R9, with `CKS_ALG` left open (R10). -/
def Params.default : Params :=
  { maxMsg := 128, encCap := 133, decCap := 132, rxbufSize := 134, cksAlg := .openParameter }

end Sys2Proof
end

