-- ==== Sys2Proof/Machine/State.lean ====
section
/-! DEFINITION. The state of the block as plain data: the registers of 10_state.md R22 to R44,
grouped by unit as R278 groups them, the hidden lists of R27 and R31, the buffers of 20_memory.md
R60, the parameters of 00_scope.md R6 to R10, and the model's own fields for what crosses the
block's boundary (R11). -/

namespace Sys2Proof.Machine

/-- A byte buffer (20_memory.md R60): (index, byte) cells, indices strictly rising. An index that
is not listed holds no value: nothing has written it, or its content is unspecified (R61, R270).
Assumption log 5. -/
abbrev Memory := List Host.Cell

/-- `CMD_STATUS` (R22). The other codes are never written (U16). -/
inductive CmdStatus where
  | ok
  | illegal
deriving DecidableEq, Repr

/-- `ENC_PHASE` and `DEC_PHASE` (R23, R28): IDLE or OPEN. -/
inductive Phase where
  | idle
  | opened
deriving DecidableEq, Repr

/-- `ENC_STATUS` (R24). -/
inductive EncStatus where
  | ok
  | noMem
  | seqErr
deriving DecidableEq, Repr

/-- `DEC_STATUS` (R29). -/
inductive DecStatus where
  | ok
  | noMem
  | format
  | seqErr
deriving DecidableEq, Repr

/-- `TX_STATUS` (R33). -/
inductive TxStatus where
  | ok
  | oversize
  | noBuf
deriving DecidableEq, Repr

/-- The stand-alone encoder (R23 to R27) and its output buffer (R60). -/
structure EncUnit where
  /-- `ENC_PHASE` (R23). -/
  phase : Phase
  /-- `ENC_STATUS` (R24). -/
  status : EncStatus
  /-- `ENC_NIN` (R25). -/
  nin : Word
  /-- `ENC_LEN` (R26). -/
  len : Word
  /-- `ENC_IN`, hidden (R27). -/
  inp : List Byte
  /-- `ENC_OUT` (R60). -/
  out : Memory
  /-- The second condition of R61: the most recent `ENC_FINISH` that found OPEN ended OK, and no
  `ENC_START` has run since. Assumption log 10. -/
  outValid : Bool
deriving DecidableEq, Repr

/-- The stand-alone decoder (R28 to R31) and its output buffer (R60). -/
structure DecUnit where
  /-- `DEC_PHASE` (R28). -/
  phase : Phase
  /-- `DEC_STATUS` (R29). -/
  status : DecStatus
  /-- `DEC_LEN` (R30). -/
  len : Reg32
  /-- `DEC_IN`, hidden and unbounded (R31). -/
  inp : List Byte
  /-- `DEC_OUT` (R60). -/
  out : Memory
  /-- The second condition of R61 for the decoder. Assumption log 10. -/
  outValid : Bool
deriving DecidableEq, Repr

/-- The outbound framer (R33 to R36, R42 to R44) and its staged payload (R60). -/
structure TxUnit where
  /-- `TX_STATUS` (R33). -/
  status : TxStatus
  /-- `TX_LEN` (R34). -/
  len : Word
  /-- `SEQ` (R35). -/
  seq : Word
  /-- `TX_FLEN` (R36). -/
  flen : Word
  /-- `TXPAY` (R60). -/
  pay : Memory
  /-- `TX_GOOD` (R42). -/
  good : Reg32
  /-- `TX_NOBUF` (R43). -/
  nobuf : Reg32
  /-- `TX_OVERSIZE` (R44). -/
  oversize : Reg32
deriving DecidableEq, Repr

/-- The inbound deframer (R37 to R41) and its accumulation buffer (R60). -/
structure RxUnit where
  /-- `RX_CNT` (R37). -/
  cnt : Word
  /-- `RXBUF` (R60). -/
  buf : Memory
  /-- `RX_GOOD` (R38). -/
  good : Reg32
  /-- `RX_CKSFAIL` (R39). -/
  cksFail : Reg32
  /-- `RX_DECFAIL` (R40). -/
  decFail : Reg32
  /-- `RX_OVERSIZE` (R41). -/
  oversize : Reg32
deriving DecidableEq, Repr

/-- A decode loop between two passes (41_decoder.md R140): the bytes it has still to read, the
expansion `E`, the variable `lastZ`, and whether a malformation has ended it (R141). Assumption
log 6. -/
structure Scan where
  rest : List Byte
  out : List Byte
  lastZ : Nat
  format : Bool
deriving DecidableEq, Repr

/-- What the host presents to the block (00_scope.md R11): a command word together with the
`txq_free` of that step (60_exceptions.md R255), or the reset event (70_reset_and_hazards.md R270).
Assumption logs 1, 3 and 12. -/
inductive Input where
  | command (word : Word) (txqFree : Nat)
  | reset
deriving DecidableEq, Repr

/-- The state of the block (R20), its parameters, and the model's own fields. -/
structure State where
  /-- `CMD_STATUS` (R22). -/
  cmdStatus : CmdStatus
  /-- The stand-alone encoder. -/
  enc : EncUnit
  /-- The stand-alone decoder. -/
  dec : DecUnit
  /-- `CKS` (R32). -/
  cks : Word
  /-- The outbound framer. -/
  tx : TxUnit
  /-- The inbound deframer. -/
  rx : RxUnit
  /-- The parameters (R6, R9, R10). No step changes them. Assumption log 9. -/
  params : Params
  /-- MODEL: the inputs the host has still to present, the next one first. Assumption log 1. -/
  port : List Input
  /-- MODEL: the environment input `txq_free` of the present step (R195, R255). Assumption
  log 3. -/
  txqFree : Nat
  /-- MODEL: the output `TxPush` (R14): every byte pushed to the TX queue, the first pushed first.
  Assumption log 4. -/
  txOut : List Byte
  /-- MODEL: the output `Deliver` (R14, R217): every frame body handed to the dispatcher, the first
  handed first. Assumption log 4. -/
  deliveries : List (List Byte)
  /-- MODEL: a decode loop at the granularity of one code byte (R92, R140). Assumption log 6. -/
  scan : Scan
deriving DecidableEq, Repr

/-- Why the block stops with a fault. There is no such reason, so nothing raises one and there is
nothing to call safe or unsafe: "The block has no traps, exceptions or interrupts" and every
command "completes normally" (60_exceptions.md R240). -/
inductive Fault where
deriving DecidableEq, Repr

/-- Why an instruction has no meaning. -/
inductive Refusal where
  /-- The instruction has no meaning in the model yet. Only an arm of `exec` may raise it, and none
  does. Safe: the run stops. -/
  | notModelled (mnemonic : String)
deriving DecidableEq, Repr

/-- A decode loop with nothing to read. -/
def Scan.exhausted : Scan := { rest := [], out := [], lastZ := 0, format := false }

/-- The encoder right after reset (R23 to R27, R60, R270, R271). -/
def EncUnit.reset : EncUnit :=
  { phase := .idle, status := .ok, nin := 0, len := 0, inp := [], out := [], outValid := false }

/-- The decoder right after reset (R28 to R31, R60, R270, R271). -/
def DecUnit.reset : DecUnit :=
  { phase := .idle, status := .ok, len := 0, inp := [], out := [], outValid := false }

/-- The outbound framer right after reset (R33 to R36, R42 to R44, R60, R270, R271). -/
def TxUnit.reset : TxUnit :=
  { status := .ok, len := 0, seq := 0, flen := 0, pay := [], good := 0, nobuf := 0, oversize := 0 }

/-- The inbound deframer right after reset (R37 to R41, R60, R270, R271). -/
def RxUnit.reset : RxUnit :=
  { cnt := 0, buf := [], good := 0, cksFail := 0, decFail := 0, oversize := 0 }

/-- The block right after reset (R270, R271), with the default parameters of R6 and R9, `CKS_ALG`
left open (R10), no input pending and no output made. -/
def State.reset : State :=
  { cmdStatus := .ok
    enc := EncUnit.reset
    dec := DecUnit.reset
    cks := CksAlg.initVal Params.default.cksAlg
    tx := TxUnit.reset
    rx := RxUnit.reset
    params := Params.default
    port := []
    txqFree := 0
    txOut := []
    deliveries := []
    scan := Scan.exhausted }

end Sys2Proof.Machine
end

