-- ==== Sys2Proof/Machine/Flags.lean ====
section
/-! DEFINITION. The block has no condition codes (10_state.md R48). What takes their place: the
numeric codes of the status registers and phase bits (R22 to R24, R28, R29, R33), and the counters
(R45, R30). -/

namespace Sys2Proof.Machine

/-- The value of `CMD_STATUS` (R22). -/
def cmdStatusCode (v : CmdStatus) : Byte :=
  match v with
  | .ok => 0
  | .illegal => 1

/-- The value of `ENC_PHASE` or `DEC_PHASE` (R23, R28). -/
def phaseBit (v : Phase) : BitVec 1 :=
  match v with
  | .idle => 0
  | .opened => 1

/-- The value of `ENC_STATUS` (R24). -/
def encStatusCode (v : EncStatus) : Byte :=
  match v with
  | .ok => 0
  | .noMem => 1
  | .seqErr => 2

/-- The value of `DEC_STATUS` (R29). -/
def decStatusCode (v : DecStatus) : Byte :=
  match v with
  | .ok => 0
  | .noMem => 1
  | .format => 2
  | .seqErr => 3

/-- The value of `TX_STATUS` (R33). -/
def txStatusCode (v : TxStatus) : Byte :=
  match v with
  | .ok => 0
  | .oversize => 1
  | .noBuf => 2

/-- One event of a link statistics counter: exactly 1 more, modulo 2^32 (R45). -/
def countUp (c : Reg32) : Reg32 := c + 1

/-- A length as `DEC_LEN` holds it: saturated at 2^32 - 1 (R30). -/
def saturate32 (n : Nat) : Reg32 := BitVec.ofNat 32 (min n 4294967295)

end Sys2Proof.Machine
end

