-- ==== Sys2Proof/Machine/Operands.lean ====
section
/-! DEFINITION. The operand forms: little-endian 16-bit fields (00_scope.md R13, 20_memory.md R63),
runs of zeros, the worst-case size `W` (40_encoder.md R111), and what a code byte selects
(30_encoding.md R91). The immediate of a command is `immField` of Decode.lean (R81). -/

namespace Sys2Proof.Machine

/-- `LE16(v)`: the low byte first (R13, R63). -/
def le16 (v : Word) : List Byte := [v.extractLsb' 0 8, v.extractLsb' 8 8]

/-- `U16LE(b0, b1)` = b0 + 256·b1 (R13). -/
def u16le (b0 b1 : Byte) : Word := b1 ++ b0

/-- `zeros(k)`: k bytes of 0x00 (R13). -/
def zeros (k : Nat) : List Byte := List.replicate k 0

/-- `W(n) = n + floor(n / 208) + 1` (R111). -/
def worstCase (n : Nat) : Nat := n + n / Config.runMax + 1

/-- `CodeClass(c)`: the literal count L and the zero count Z of a code byte, or BAD (R91). -/
def codeClass (c : Byte) : Option (Nat × Nat) :=
  if c = 0x00 ∨ c = 0xD2 then none
  else if 0x01 ≤ c.toNat ∧ c.toNat ≤ 0xD0 then some (c.toNat - 1, 1)
  else if c = 0xD1 then some (208, 0)
  else if 0xD3 ≤ c.toNat ∧ c.toNat ≤ 0xDF then some (0, c.toNat - 0xD0)
  else some (c.toNat - 0xE0, 2)

end Sys2Proof.Machine
end

