-- ==== Sys2Proof/Machine/Ops.lean ====
section
/-! DEFINITION. The shared operations: buffers (20_memory.md R60), whole-unit register writes,
outputs (00_scope.md R14), the CMD_STATUS write of every command (45_control.md R232), the ILLEGAL
behaviour (R231), the reset event (70_reset_and_hazards.md R270), the host's read ports (10_state.md
R46, 20_memory.md R61, R62), and taking the next input from the port (R11). The block has no
exception to take and none to return from (60_exceptions.md R240, R244). -/

namespace Sys2Proof.Machine

/-! ### Buffers -/

/-- What an index of a buffer holds, if anything. -/
def memRead : Memory → Nat → Option Byte
  | [], _ => none
  | (k, v) :: rest, a => if k = a then some v else memRead rest a

/-- Write one byte at an index, keeping the indices strictly rising. -/
def memWrite : Memory → Nat → Byte → Memory
  | [], a, b => [(a, b)]
  | (k, v) :: rest, a, b =>
    if a < k then (a, b) :: (k, v) :: rest
    else if a = k then (a, b) :: rest
    else (k, v) :: memWrite rest a b

/-- The canonical form: indices strictly rising. No entry can equal what an unlisted index reads
as, since that is no value. -/
def Memory.wf (m : Memory) : Bool := decide ((m.map Prod.fst).Pairwise (· < ·))

/-- `BufWrite(B, i, v)` on a buffer of `size` bytes (R14). "No command writes a buffer at an index
at or above its size" (R60): such a write, which no reachable state makes, is dropped. Assumption
log 16. -/
def bufWrite (size : Nat) (m : Memory) (i : Nat) (v : Byte) : Memory :=
  if i < size then memWrite m i v else m

/-- `BufWrite` of successive bytes at successive indices. -/
def bufWriteAll (size : Nat) : Memory → Nat → List Byte → Memory
  | m, _, [] => m
  | m, i, b :: bs => bufWriteAll size (bufWrite size m i b) (i + 1) bs

/-- `BufRead(B, i)` by the block itself. A byte that nothing has written is a free value (U4); no
reachable state reads one. Assumption log 7. -/
def bufByte (id : BufferId) (m : Memory) (i : Nat) : Byte :=
  (memRead m i).getD (Config.unwrittenByte id i)

/-- The bytes `B[0 .. n)` as the block reads them. -/
def bufBytes (id : BufferId) (m : Memory) (n : Nat) : List Byte :=
  (List.range n).map (bufByte id m)

/-! ### Register writes and outputs -/

/-- Write `CMD_STATUS`. -/
def State.setCmdStatus (s : State) (v : CmdStatus) : State := { s with cmdStatus := v }

/-- Write registers of the stand-alone encoder. -/
def State.setEnc (s : State) (u : EncUnit) : State := { s with enc := u }

/-- Write registers of the stand-alone decoder. -/
def State.setDec (s : State) (u : DecUnit) : State := { s with dec := u }

/-- Write `CKS`. -/
def State.setCks (s : State) (v : Word) : State := { s with cks := v }

/-- Write registers of the outbound framer. -/
def State.setTx (s : State) (u : TxUnit) : State := { s with tx := u }

/-- Write registers of the inbound deframer. -/
def State.setRx (s : State) (u : RxUnit) : State := { s with rx := u }

/-- Write the block-level decode loop. -/
def State.setScan (s : State) (sc : Scan) : State := { s with scan := sc }

/-- `TxPush` of each byte of a frame, in order (R14, R69). -/
def State.pushTx (s : State) (frame : List Byte) : State := { s with txOut := s.txOut ++ frame }

/-- `Deliver(bytes)` (R14, R217, R257). -/
def State.deliver (s : State) (bytes : List Byte) : State :=
  { s with deliveries := s.deliveries ++ [bytes] }

/-- Remove the inputs already presented, leaving those given. -/
def State.setPort (s : State) (inputs : List Input) : State := { s with port := inputs }

/-- The environment's `txq_free` for the present step (R255). -/
def State.setTxqFree (s : State) (n : Nat) : State := { s with txqFree := n }

/-! ### Effects common to commands -/

/-- What every assigned opcode does besides its own effect: `CMD_STATUS <- 0` (R232). -/
def completeCommand (s : State) : State := s.setCmdStatus .ok

/-- The whole effect of an unassigned opcode: `CMD_STATUS <- 1` (R231). -/
def illegalCommand (s : State) : State := s.setCmdStatus .illegal

/-- The reset event (R270, R271): every register at its reset value, the hidden lists empty, the
buffers unwritten. It does not reach the parameters, nor what is outside the block: the pending
inputs, the environment and the outputs already made (R273). Assumption log 12. -/
def resetEvent (s : State) : State :=
  { State.reset with
    params := s.params
    cks := CksAlg.initVal s.params.cksAlg
    port := s.port
    txqFree := s.txqFree
    txOut := s.txOut
    deliveries := s.deliveries }

/-! ### The host's read ports -/

/-- The host's read of a register by number, zero-extended to 32 bits (R46). Other numbers are
refused: the read has no value (R47). -/
def readReg (s : State) (number : Byte) : Option Reg32 :=
  match number with
  | 0x00#8 => some ((cmdStatusCode s.cmdStatus).setWidth 32)
  | 0x01#8 => some ((phaseBit s.enc.phase).setWidth 32)
  | 0x02#8 => some ((encStatusCode s.enc.status).setWidth 32)
  | 0x03#8 => some (s.enc.nin.setWidth 32)
  | 0x04#8 => some (s.enc.len.setWidth 32)
  | 0x05#8 => some ((phaseBit s.dec.phase).setWidth 32)
  | 0x06#8 => some ((decStatusCode s.dec.status).setWidth 32)
  | 0x07#8 => some s.dec.len
  | 0x08#8 => some (s.cks.setWidth 32)
  | 0x09#8 => some ((txStatusCode s.tx.status).setWidth 32)
  | 0x0A#8 => some (s.tx.len.setWidth 32)
  | 0x0B#8 => some (s.tx.seq.setWidth 32)
  | 0x0C#8 => some (s.tx.flen.setWidth 32)
  | 0x0D#8 => some (s.rx.cnt.setWidth 32)
  | 0x10#8 => some s.rx.good
  | 0x11#8 => some s.rx.cksFail
  | 0x12#8 => some s.rx.decFail
  | 0x13#8 => some s.rx.oversize
  | 0x14#8 => some s.tx.good
  | 0x15#8 => some s.tx.nobuf
  | 0x16#8 => some s.tx.oversize
  | _ => none

/-- The host's `BufRead(B, i)` (R61): a value inside the window only, refused everywhere else. -/
def bufRead (s : State) (id : BufferId) (i : Nat) : Option Byte :=
  match id with
  | .encOut =>
    if s.enc.outValid = true ∧ i < s.enc.len.toNat ∧ i < s.params.encCap then memRead s.enc.out i
    else none
  | .decOut =>
    if s.dec.outValid = true ∧ i < s.dec.len.toNat ∧ i < s.params.decCap then memRead s.dec.out i
    else none
  | .txPay => none
  | .rxBuf => none

/-- A host read at an address of the block's own map (R62). A register comes back zero-extended to 32
bits (R46). A buffer byte is read alone and no wider (R61, R64). DESIGN CHOICE: the form in which it
comes back through the map is not stated, and it is zero-extended to 32 bits as a register is.
Assumption log 21. -/
def hostRead (s : State) (a : HostAddr) : Option Reg32 :=
  match a with
  | .register number => readReg s number
  | .encOut index => (bufRead s .encOut index).map fun b => b.setWidth 32
  | .decOut index => (bufRead s .decOut index).map fun b => b.setWidth 32

/-- A host read at a platform address, under the open placement `HOST_MAP` (R62). An address that it
does not place has no value. Assumption log 13. -/
def hostBusRead (s : State) (a : Nat) : Option Reg32 := (Config.hostMap a).bind (hostRead s)

/-! ### Taking the next input -/

/-- What the next step is to do. -/
inductive Fetched where
  /-- No input is pending. -/
  | idle
  /-- A reset event; the state is the one before it, the event taken from the port. -/
  | reset (s : State)
  /-- An instruction of the table, and the state it runs in. -/
  | run (i : Instr) (s : State)
  /-- A command word with an unassigned opcode, and the state it is met in. -/
  | illegal (s : State)

/-- Whether a decode loop has another pass to make (the condition of R140's loop, and R141: "The
first malformation found ends the scan"). -/
def scanActive (sc : Scan) : Bool := !sc.format && !sc.rest.isEmpty

/-- The next input: a code byte of a decode loop in progress (R140: `c <- s[i]; i <- i + 1`), else
what the host presents next at the port (R11, R21). -/
def fetch (s : State) : Fetched :=
  match scanActive s.scan, s.scan.rest, s.port with
  | true, c :: rest, _ => .run (decodeCodeByte c) (s.setScan { s.scan with rest := rest })
  | _, _, [] => .idle
  | _, _, .reset :: inputs => .reset (s.setPort inputs)
  | _, _, .command word free :: inputs =>
    match decodeCommand word with
    | .ok i => .run i ((s.setPort inputs).setTxqFree free)
    | .error _ => .illegal ((s.setPort inputs).setTxqFree free)

/-- Place an instruction word where `fetch` takes the next one from: a code byte as the whole input
of a decode loop, a command word at the front of the port with the `txq_free` now shown. Assumption
log 17. -/
def placeWord (s : State) (nbits w : Nat) : State :=
  if nbits = 8 then
    s.setScan { rest := [BitVec.ofNat 8 w], out := [], lastZ := 0, format := false }
  else
    (if scanActive s.scan then s.setScan Scan.exhausted else s).setPort
      (.command (BitVec.ofNat 16 w) s.txqFree :: s.port)

end Sys2Proof.Machine
end

