-- ==== Sys2Proof/Machine/Codec.lean ====
section
/-! DEFINITION. The byte-stuffing functions: `Encode` (40_encoder.md R110), its streaming form
(R113), and `Decode` (41_decoder.md R140 to R144) as a loop over one decode pass. -/

namespace Sys2Proof.Machine

/-! ### Encode -/

/-- The length of the maximal run of 0x00 at the front of a list (R110). -/
def zeroRun : List Byte → Nat
  | [] => 0
  | b :: bs => if b = 0 then zeroRun bs + 1 else 0

/-- The length of the maximal run of non-zero bytes at the front of a list (R110). -/
def dataRun : List Byte → Nat
  | [] => 0
  | b :: bs => if b = 0 then 0 else dataRun bs + 1

/-- A code byte (R90); the counts the encoder gives it stay below 256. -/
def codeByteOf (n : Nat) : Byte := BitVec.ofNat 8 n

/-- The loop of R110 over the bytes of `y` not yet coded. Each pass takes at least one byte, so a
fuel of |y| passes is enough. -/
def encodeLoop : Nat → List Byte → List Byte
  | 0, _ => []
  | _ + 1, [] => []
  | fuel + 1, b :: bs =>
    let y := b :: bs
    if b = 0 then
      let k := zeroRun y
      if 3 ≤ k then
        let m := min k 15
        codeByteOf (0xD0 + m) :: encodeLoop fuel (y.drop m)
      else if k = 2 then 0xE0 :: encodeLoop fuel (y.drop 2)
      else 0x01 :: encodeLoop fuel (y.drop 1)
    else
      let n := dataRun y
      if 208 ≤ n then 0xD1 :: (y.take 208 ++ encodeLoop fuel (y.drop 208))
      else
        let k := zeroRun (y.drop n)
        if n ≤ 31 ∧ 2 ≤ k then
          codeByteOf (0xE0 + n) :: (y.take n ++ encodeLoop fuel (y.drop (n + 2)))
        else codeByteOf (n + 1) :: (y.take n ++ encodeLoop fuel (y.drop (n + 1)))

/-- `Encode(x)` (R110): the loop over x and the phantom zero (R112). -/
def stuffEncode (x : List Byte) : List Byte := encodeLoop (x.length + 1) (x ++ [0])

/-! ### The streaming encoder -/

/-- The state of the streaming encoder (R113). -/
inductive StreamState where
  | idle
  | lit (n : Nat) (buf : List Byte)
  | litz (n : Nat) (buf : List Byte)
  | zrun (k : Nat)
deriving DecidableEq, Repr

/-- `zc(k)` (R113). -/
def zeroCode (k : Nat) : Byte :=
  if 3 ≤ k then codeByteOf (0xD0 + k) else if k = 2 then 0xE0 else 0x01

/-- `feed(b)` (R113): the new state, and the bytes emitted. -/
def streamFeed (st : StreamState) (b : Byte) : StreamState × List Byte :=
  match st with
  | .idle => if b = 0 then (.zrun 1, []) else (.lit 1 [b], [])
  | .lit n buf =>
    if b = 0 then
      if n ≤ 31 then (.litz n buf, []) else (.idle, codeByteOf (n + 1) :: buf)
    else if n + 1 = 208 then (.idle, 0xD1 :: (buf ++ [b]))
    else (.lit (n + 1) (buf ++ [b]), [])
  | .litz n buf =>
    if b = 0 then (.idle, codeByteOf (0xE0 + n) :: buf)
    else (.lit 1 [b], codeByteOf (n + 1) :: buf)
  | .zrun k =>
    if b = 0 then
      if k + 1 = 15 then (.idle, [0xDF]) else (.zrun (k + 1), [])
    else (.lit 1 [b], [zeroCode k])

/-- What `finish` emits after it has fed the phantom zero (R113). LIT cannot hold then. -/
def streamFlush (st : StreamState) : List Byte :=
  match st with
  | .idle => []
  | .lit _ _ => []
  | .litz n buf => codeByteOf (n + 1) :: buf
  | .zrun k => [zeroCode k]

/-- Everything emitted from a state on, for the bytes still to be fed and then `finish` (R113). -/
def streamFrom : StreamState → List Byte → List Byte
  | st, [] => (streamFeed st 0).2 ++ streamFlush (streamFeed st 0).1
  | st, b :: bs => (streamFeed st b).2 ++ streamFrom (streamFeed st b).1 bs

/-- The whole output of the streaming encoder for an input (R113). -/
def streamEncode (x : List Byte) : List Byte := streamFrom .idle x

/-! ### Decode -/

/-- A result of `Decode` (R140): FORMAT, or OK with the decoded bytes. -/
inductive Decoded where
  | format
  | ok (d : List Byte)
deriving DecidableEq, Repr

/-- A decode loop about to read the bytes of a list (R140, first line). -/
def scanStart (stuffed : List Byte) : Scan :=
  { rest := stuffed, out := [], lastZ := 0, format := false }

/-- A malformation: FORMAT, and the loop ends (R141). -/
def scanFormat (sc : Scan) : Scan := { sc with format := true }

/-- The rest of a pass of R140 after its code byte has been read and classed as `(L, Z)`: a
truncated block (R141 (b)) and a zero literal (R141 (c)) are FORMAT, else the literals and then the
zeros join the expansion. -/
def scanBlock (literals trailing : Nat) (sc : Scan) : Scan :=
  if sc.rest.length < literals then scanFormat sc
  else if (0 : Byte) ∈ sc.rest.take literals then scanFormat sc
  else
    { rest := sc.rest.drop literals
      out := sc.out ++ sc.rest.take literals ++ zeros trailing
      lastZ := trailing
      format := false }

/-- One pass of the loop of R140: read a code byte, class it (R91), take its block. -/
def scanPass (sc : Scan) : Scan :=
  match sc.rest with
  | [] => sc
  | c :: rest =>
    match codeClass c with
    | none => scanFormat { sc with rest := rest }
    | some (literals, trailing) => scanBlock literals trailing { sc with rest := rest }

/-- The loop of R140. Each pass reads at least one byte, so a fuel of |s| passes is enough. -/
def scanRun : Nat → Scan → Scan
  | 0, sc => sc
  | fuel + 1, sc => if scanActive sc then scanRun fuel (scanPass sc) else sc

/-- What a decode loop has found: FORMAT, or the expansion without the phantom zero when the last
block carried zeros (R140, last lines; R142). -/
def scanResult (sc : Scan) : Decoded :=
  if sc.format then .format
  else if 1 ≤ sc.lastZ then .ok sc.out.dropLast
  else .ok sc.out

/-- `Decode(s)` (R140 to R142, R144). The capacity test is the caller's (R143). -/
def stuffDecode (stuffed : List Byte) : Decoded :=
  scanResult (scanRun stuffed.length (scanStart stuffed))

end Sys2Proof.Machine
end

