-- ==== Sys2Proof/Machine/CodeByte.lean ====
section
/-! DEFINITION. The code-byte classes as decoder instructions (30_encoding.md R92): each performs
what a pass of the decode loop does once it has read that code byte (41_decoder.md R140, R141). They
act on the decode loop in `scan` and on nothing else; they are no commands, so they do not write
`CMD_STATUS` (R232). Assumption log 6. -/

namespace Sys2Proof.Machine

/-- Code byte 0x00: FORMAT (R141 (a)). -/
def execCodeIllegal (s : State) : Host.Outcome State Fault Refusal :=
  .next (s.setScan (scanFormat s.scan))

/-- Code bytes 0x01 to 0xD0: the literals, then one zero (R90, R140). -/
def execCodeDataZ1 (literals : Nat) (s : State) : Host.Outcome State Fault Refusal :=
  .next (s.setScan (scanBlock literals 1 s.scan))

/-- Code byte 0xD1: 208 literals and no zero (R90, R140). -/
def execCodeDataMax (s : State) : Host.Outcome State Fault Refusal :=
  .next (s.setScan (scanBlock Config.runMax 0 s.scan))

/-- Code byte 0xD2: FORMAT (R141 (a)). -/
def execCodeReserved (s : State) : Host.Outcome State Fault Refusal :=
  .next (s.setScan (scanFormat s.scan))

/-- Code bytes 0xD3 to 0xDF: a run of zeros (R90, R140). -/
def execCodeZrun (run : Nat) (s : State) : Host.Outcome State Fault Refusal :=
  .next (s.setScan (scanBlock 0 run s.scan))

/-- Code bytes 0xE0 to 0xFF: the literals, then two zeros (R90, R140). -/
def execCodeDataZ2 (literals : Nat) (s : State) : Host.Outcome State Fault Refusal :=
  .next (s.setScan (scanBlock literals 2 s.scan))

end Sys2Proof.Machine
end

