-- ==== Sys2Proof/Machine/Control.lean ====
section
/-! DEFINITION. The control commands (45_control.md). The behaviour of unassigned opcodes (R231) is
`illegalCommand` of Ops.lean. -/

namespace Sys2Proof.Machine

/-- `NOP` (R230): nothing but the `CMD_STATUS` write of every command (R232). -/
def execNop (s : State) : Host.Outcome State Fault Refusal := .next (completeCommand s)

end Sys2Proof.Machine
end

