-- ==== Sys2Proof/Machine/Decoder.lean ====
section
/-! DEFINITION. The stand-alone decoder's commands (41_decoder.md R145 to R147). -/

namespace Sys2Proof.Machine

/-- `DEC_START` (R145). `DEC_OUT` becomes unspecified (R61), held as unwritten (assumption
log 5). -/
def decStartUnit (u : DecUnit) : DecUnit :=
  { u with phase := .opened, inp := [], len := 0, status := .ok, out := [], outValid := false }

/-- `DEC_FEED` of one stuffed byte (R146). -/
def decFeedUnit (b : Byte) (u : DecUnit) : DecUnit :=
  if u.phase = .idle then { u with status := .seqErr } else { u with inp := u.inp ++ [b] }

/-- `DEC_FINISH` (R147, with the capacity test of R143 and the order of R144 and R243). After FORMAT
and NOMEM, and at and above `DEC_LEN`, `DEC_OUT` is unspecified, held as unwritten (assumption
log 5). -/
def decFinishUnit (p : Params) (u : DecUnit) : DecUnit :=
  if u.phase = .idle then { u with status := .seqErr }
  else
    match stuffDecode u.inp with
    | .format =>
      { u with phase := .idle, status := .format, len := 0, out := [], outValid := false }
    | .ok d =>
      if p.decCap < d.length then
        { u with phase := .idle, status := .noMem, len := saturate32 d.length, out := []
                 outValid := false }
      else
        { u with phase := .idle, out := bufWriteAll p.decCap [] 0 d, status := .ok
                 len := saturate32 d.length, outValid := true }

/-- `DEC_START` (R145, R232). -/
def execDecStart (s : State) : Host.Outcome State Fault Refusal :=
  .next (completeCommand (s.setDec (decStartUnit s.dec)))

/-- `DEC_FEED imm` (R146, R232). -/
def execDecFeed (imm : Byte) (s : State) : Host.Outcome State Fault Refusal :=
  .next (completeCommand (s.setDec (decFeedUnit imm s.dec)))

/-- `DEC_FINISH` (R147, R232). -/
def execDecFinish (s : State) : Host.Outcome State Fault Refusal :=
  .next (completeCommand (s.setDec (decFinishUnit s.params s.dec)))

end Sys2Proof.Machine
end

