-- ==== Sys2Proof/Machine/Encoder.lean ====
section
/-! DEFINITION. The stand-alone encoder's commands (40_encoder.md R115 to R117). -/

namespace Sys2Proof.Machine

/-- `ENC_START` (R115). `ENC_OUT` becomes unspecified (R61), held as unwritten (assumption
log 5). -/
def encStartUnit (u : EncUnit) : EncUnit :=
  { u with phase := .opened, inp := [], nin := 0, len := 0, status := .ok, out := []
           outValid := false }

/-- `ENC_FEED` of one byte (R116; the order of its outcomes is R243's). -/
def encFeedUnit (p : Params) (b : Byte) (u : EncUnit) : EncUnit :=
  if u.phase = .idle then { u with status := .seqErr }
  else if u.status = .noMem then u
  else if p.encCap < worstCase (u.nin.toNat + 1) then { u with status := .noMem }
  else { u with inp := u.inp ++ [b], nin := u.nin + 1 }

/-- `ENC_FINISH` (R117). After NOMEM, and at and above `ENC_LEN`, `ENC_OUT` is unspecified, held as
unwritten (assumption log 5). -/
def encFinishUnit (p : Params) (u : EncUnit) : EncUnit :=
  if u.phase = .idle then { u with status := .seqErr }
  else if u.status = .noMem then { u with phase := .idle, len := 0, out := [], outValid := false }
  else
    let e := stuffEncode u.inp
    { u with phase := .idle, out := bufWriteAll p.encCap [] 0 e, len := BitVec.ofNat 16 e.length
             status := .ok, outValid := true }

/-- `ENC_START` (R115, R232). -/
def execEncStart (s : State) : Host.Outcome State Fault Refusal :=
  .next (completeCommand (s.setEnc (encStartUnit s.enc)))

/-- `ENC_FEED imm` (R116, R232). -/
def execEncFeed (imm : Byte) (s : State) : Host.Outcome State Fault Refusal :=
  .next (completeCommand (s.setEnc (encFeedUnit s.params imm s.enc)))

/-- `ENC_FINISH` (R117, R232). -/
def execEncFinish (s : State) : Host.Outcome State Fault Refusal :=
  .next (completeCommand (s.setEnc (encFinishUnit s.params s.enc)))

end Sys2Proof.Machine
end

