-- ==== Sys2Proof/Machine/Checksum.lean ====
section
/-! DEFINITION. The 16-bit checksum: `Checksum` (42_checksum.md R170), generation (R174) and
verification (R175), the reference instance REF_CRC (R176), and the two stand-alone commands (R172,
R173). -/

namespace Sys2Proof.Machine

/-- One of the eight repetitions of R176's step. -/
def crcShift (c : Word) : Word := if c.msb then (c <<< 1) ^^^ 0x1021 else c <<< 1

/-- `cks_step` of REF_CRC (R176). -/
def refCrcStep (c : Word) (b : Byte) : Word :=
  crcShift (crcShift (crcShift (crcShift (crcShift (crcShift (crcShift (crcShift
    (c ^^^ (b.setWidth 16 <<< 8)))))))))

/-- `cks_step` of an algorithm (R10; R176 for REF_CRC). -/
def cksStep (alg : CksAlg) (c : Word) (b : Byte) : Word :=
  match alg with
  | .openParameter => Config.cksStep c b
  | .refCrc => refCrcStep c b

/-- `Checksum(x)`: the left fold of `cks_step` from `CKS_INIT_VAL` (R170). -/
def checksum (alg : CksAlg) (x : List Byte) : Word := x.foldl (cksStep alg) alg.initVal

/-- `GenCks(P, s)` (R174). -/
def genCks (alg : CksAlg) (payload : List Byte) (seq : Word) : Word :=
  checksum alg (payload ++ le16 seq)

/-- The checksum field of a decoded frame: its last two bytes (R63, R88). -/
def checksumField (frame : List Byte) : Word :=
  u16le (frame.getD (frame.length - 2) 0) (frame.getD (frame.length - 1) 0)

/-- The comparison of R175 on a frame of at least `OVH` bytes. -/
def checksumMatches (alg : CksAlg) (frame : List Byte) : Bool :=
  checksum alg (frame.take (frame.length - 2)) == checksumField frame

/-- Verification: a frame passes when it is long enough and its checksum matches (R175). -/
def verifies (alg : CksAlg) (frame : List Byte) : Bool :=
  decide (Config.ovh ≤ frame.length) && checksumMatches alg frame

/-- `CKS_INIT` (R172). -/
def execCksInit (s : State) : Host.Outcome State Fault Refusal :=
  .next (completeCommand (s.setCks s.params.cksAlg.initVal))

/-- `CKS_FEED imm` (R173). -/
def execCksFeed (imm : Byte) (s : State) : Host.Outcome State Fault Refusal :=
  .next (completeCommand (s.setCks (cksStep s.params.cksAlg s.cks imm)))

end Sys2Proof.Machine
end

