-- ==== Sys2Proof/Machine/FrameRx.lean ====
section
/-! DEFINITION. The inbound deframer (44_frame_rx.md R210 to R218). -/

namespace Sys2Proof.Machine

/-- `Accumulate(b)` and the oversize discard (R211, R212). The bytes dropped by a discard are held
as unwritten (assumption log 5). No hunt state exists. -/
def accumulate (p : Params) (b : Byte) (u : RxUnit) : RxUnit :=
  if (u.cnt + 1).toNat = p.rxbufSize then
    { u with cnt := 0, buf := [], oversize := countUp u.oversize }
  else { u with buf := bufWrite p.rxbufSize u.buf u.cnt.toNat b, cnt := u.cnt + 1 }

/-- The stuffed frame `S = RXBUF[0 .. RX_CNT)` (R213). -/
def accumulated (u : RxUnit) : List Byte := bufBytes .rxBuf u.buf u.cnt.toNat

/-- The outcome of a completed frame (R214 to R217, in the order of R243): the new counters, and the
frame body if it is delivered. The sequence number is not read (R218). -/
def frameOutcome (p : Params) (r : Decoded) (u : RxUnit) : RxUnit × Option (List Byte) :=
  match r with
  | .format => ({ u with decFail := countUp u.decFail }, none)
  | .ok d =>
    if p.decCap < d.length then ({ u with decFail := countUp u.decFail }, none)
    else if d.length < Config.ovh then ({ u with cksFail := countUp u.cksFail }, none)
    else if verifies p.cksAlg d then
      ({ u with good := countUp u.good }, some (d.take (d.length - Config.ovh)))
    else ({ u with cksFail := countUp u.cksFail }, none)

/-- `CompleteFrame()` (R213): take the accumulated frame, empty the buffer, decode with a private
decoder, and record the outcome. -/
def completeFrame (s : State) : State :=
  let emptied := { s.rx with cnt := 0, buf := [] }
  let outcome := frameOutcome s.params (stuffDecode (accumulated s.rx)) emptied
  match outcome.2 with
  | none => s.setRx outcome.1
  | some body => (s.setRx outcome.1).deliver body

/-- One line byte (R210): the delimiter completes a frame (R93), every other byte accumulates. -/
def ingest (b : Byte) (s : State) : State :=
  if b = 0 then completeFrame s else s.setRx (accumulate s.params b s.rx)

/-- `RX_BYTE imm` (R210, R232). -/
def execRxByte (imm : Byte) (s : State) : Host.Outcome State Fault Refusal :=
  .next (completeCommand (ingest imm s))

end Sys2Proof.Machine
end

