-- ==== Sys2Proof/Machine/FrameTx.lean ====
section
/-! DEFINITION. The outbound framer (43_frame_tx.md R190 to R195). -/

namespace Sys2Proof.Machine

/-- `WireFrame(P, s)` (30_encoding.md R86). -/
def wireFrame (alg : CksAlg) (payload : List Byte) (seq : Word) : List Byte :=
  payload ++ le16 seq ++ le16 (genCks alg payload seq)

/-- `BuildFrame(P, s)`: the stuffed wire frame and its delimiter (R193, R86). -/
def buildFrame (alg : CksAlg) (payload : List Byte) (seq : Word) : List Byte :=
  stuffEncode (wireFrame alg payload seq) ++ [0]

/-- `TX_BEGIN` (R190). `TXPAY` becomes unspecified, held as unwritten (assumption log 5). -/
def txBeginUnit (u : TxUnit) : TxUnit := { u with len := 0, pay := [] }

/-- `TX_PUSH` of one payload byte (R191). -/
def txPushUnit (p : Params) (b : Byte) (u : TxUnit) : TxUnit :=
  if u.len.toNat < p.maxMsg then
    { u with pay := bufWrite p.maxMsg u.pay u.len.toNat b, len := u.len + 1 }
  else if u.len.toNat = p.maxMsg then { u with len := BitVec.ofNat 16 (p.maxMsg + 1) }
  else u

/-- The staged payload `[BufRead(TXPAY, j) for j in 0 .. n-1]` (R192). -/
def stagedPayload (u : TxUnit) : List Byte := bufBytes .txPay u.pay u.len.toNat

/-- `TX_SEND` (R192): the oversize check, sequence allocation (R194), the frame (R193), and the all
or nothing hand-off under `txq_free` (R195). -/
def sendStaged (s : State) : State :=
  if s.params.maxMsg < s.tx.len.toNat then
    s.setTx { s.tx with oversize := countUp s.tx.oversize, status := .oversize }
  else
    let frame := buildFrame s.params.cksAlg (stagedPayload s.tx) s.tx.seq
    let built := { s.tx with seq := s.tx.seq + 1, flen := BitVec.ofNat 16 frame.length }
    if s.txqFree < frame.length then
      s.setTx { built with nobuf := countUp s.tx.nobuf, status := .noBuf }
    else (s.setTx { built with good := countUp s.tx.good, status := .ok }).pushTx frame

/-- `TX_BEGIN` (R190, R232). -/
def execTxBegin (s : State) : Host.Outcome State Fault Refusal :=
  .next (completeCommand (s.setTx (txBeginUnit s.tx)))

/-- `TX_PUSH imm` (R191, R232). -/
def execTxPush (imm : Byte) (s : State) : Host.Outcome State Fault Refusal :=
  .next (completeCommand (s.setTx (txPushUnit s.params imm s.tx)))

/-- `TX_SEND` (R192, R232). -/
def execTxSend (s : State) : Host.Outcome State Fault Refusal :=
  .next (completeCommand (sendStaged s))

end Sys2Proof.Machine
end

