-- ==== Sys2Proof/Machine/Dispatch.lean ====
section
/-! DEFINITION. The dispatch from an instruction to its meaning, one arm per constructor. -/

namespace Sys2Proof.Machine

-- One direct call per instruction; the meanings stand in the family files.
def exec (i : Instr) (s : State) : Host.Outcome State Fault Refusal :=
  match i with
  | .nop => Sys2Proof.Machine.execNop s
  | .encStart => Sys2Proof.Machine.execEncStart s
  | .encFeed imm => Sys2Proof.Machine.execEncFeed imm s
  | .encFinish => Sys2Proof.Machine.execEncFinish s
  | .decStart => Sys2Proof.Machine.execDecStart s
  | .decFeed imm => Sys2Proof.Machine.execDecFeed imm s
  | .decFinish => Sys2Proof.Machine.execDecFinish s
  | .cksInit => Sys2Proof.Machine.execCksInit s
  | .cksFeed imm => Sys2Proof.Machine.execCksFeed imm s
  | .txBegin => Sys2Proof.Machine.execTxBegin s
  | .txPush imm => Sys2Proof.Machine.execTxPush imm s
  | .txSend => Sys2Proof.Machine.execTxSend s
  | .rxByte imm => Sys2Proof.Machine.execRxByte imm s
  | .codeIllegal => Sys2Proof.Machine.execCodeIllegal s
  | .codeDataZ1 literals => Sys2Proof.Machine.execCodeDataZ1 literals s
  | .codeDataMax => Sys2Proof.Machine.execCodeDataMax s
  | .codeReserved => Sys2Proof.Machine.execCodeReserved s
  | .codeZrun run => Sys2Proof.Machine.execCodeZrun run s
  | .codeDataZ2 literals => Sys2Proof.Machine.execCodeDataZ2 literals s

end Sys2Proof.Machine
end

