-- ==== Sys2Proof/Machine/Step.lean ====
section
/-! DEFINITION. One step of the block (00_scope.md R11, 10_state.md R21). -/

namespace Sys2Proof.Machine

/-- One step: run the next input. An unassigned opcode has the ILLEGAL effect (45_control.md R231),
a reset event the effect of 70_reset_and_hazards.md R270. With no input pending nothing happens
(assumption log 2). -/
def step (s : State) : Host.Outcome State Fault Refusal :=
  match fetch s with
  | .idle => .next s
  | .reset t => .next (resetEvent t)
  | .run i t => exec i t
  | .illegal t => .next (illegalCommand t)

/-- The state in which the next step fetches and runs the instruction `w` of `nbits` bits, bit 0
the least significant: a code byte for 8 bits, a command word else. Assumption log 17. -/
def State.withFetchWord (s : State) (nbits w : Nat) : State := placeWord s nbits w

end Sys2Proof.Machine
end

