-- ==== Sys2Proof/Machine/Assembler.lean ====
section
/-! DEFINITION. The assembler syntax and the pseudo-instructions of 30_encoding.md R85. No step of
the block rests on this file: it says which command words a program text stands for. Assumption
log 18. -/

namespace Sys2Proof.Machine

/-- The pseudo-instructions of R85. -/
inductive Pseudo where
  | encBytes
  | decBytes
  | cksBytes
  | txBytes
  | rxBytes
  | encode
  | decode
  | send
deriving DecidableEq, Repr

/-- One line of a program (R85). -/
inductive AsmLine where
  /-- Nothing, or a comment alone. -/
  | blank
  /-- `MNEMONIC` or `MNEMONIC imm`; without an immediate, `imm` is 0x00. -/
  | command (op imm : Byte)
  /-- A pseudo-instruction with its listed bytes; the list may be empty. -/
  | pseudo (p : Pseudo) (bytes : List Byte)
  /-- `.word 0xHHHH`. -/
  | word (w : Word)
deriving DecidableEq, Repr

/-- One command per listed byte, in order (R85). -/
def feedWords (op : Byte) (bytes : List Byte) : List Word := bytes.map (commandWord op)

/-- The command words of a pseudo-instruction (R85). -/
def expandPseudo (p : Pseudo) (bytes : List Byte) : List Word :=
  match p with
  | .encBytes => feedWords 0x11 bytes
  | .decBytes => feedWords 0x21 bytes
  | .cksBytes => feedWords 0x31 bytes
  | .txBytes => feedWords 0x41 bytes
  | .rxBytes => feedWords 0x50 bytes
  | .encode => commandWord 0x10 0x00 :: (feedWords 0x11 bytes ++ [commandWord 0x12 0x00])
  | .decode => commandWord 0x20 0x00 :: (feedWords 0x21 bytes ++ [commandWord 0x22 0x00])
  | .send => commandWord 0x40 0x00 :: (feedWords 0x41 bytes ++ [commandWord 0x42 0x00])

/-- The command words of a line (R85). -/
def expandLine (line : AsmLine) : List Word :=
  match line with
  | .blank => []
  | .command op imm => [commandWord op imm]
  | .pseudo p bytes => expandPseudo p bytes
  | .word w => [w]

/-- The mnemonics of R82 with their opcodes. -/
def opcodeNames : List (List Char × Byte) :=
  [(['N', 'O', 'P'], 0x00),
   (['E', 'N', 'C', '_', 'S', 'T', 'A', 'R', 'T'], 0x10),
   (['E', 'N', 'C', '_', 'F', 'E', 'E', 'D'], 0x11),
   (['E', 'N', 'C', '_', 'F', 'I', 'N', 'I', 'S', 'H'], 0x12),
   (['D', 'E', 'C', '_', 'S', 'T', 'A', 'R', 'T'], 0x20),
   (['D', 'E', 'C', '_', 'F', 'E', 'E', 'D'], 0x21),
   (['D', 'E', 'C', '_', 'F', 'I', 'N', 'I', 'S', 'H'], 0x22),
   (['C', 'K', 'S', '_', 'I', 'N', 'I', 'T'], 0x30),
   (['C', 'K', 'S', '_', 'F', 'E', 'E', 'D'], 0x31),
   (['T', 'X', '_', 'B', 'E', 'G', 'I', 'N'], 0x40),
   (['T', 'X', '_', 'P', 'U', 'S', 'H'], 0x41),
   (['T', 'X', '_', 'S', 'E', 'N', 'D'], 0x42),
   (['R', 'X', '_', 'B', 'Y', 'T', 'E'], 0x50)]

/-- The names of the pseudo-instructions (R85). -/
def pseudoNames : List (List Char × Pseudo) :=
  [(['E', 'N', 'C', '_', 'B', 'Y', 'T', 'E', 'S'], .encBytes),
   (['D', 'E', 'C', '_', 'B', 'Y', 'T', 'E', 'S'], .decBytes),
   (['C', 'K', 'S', '_', 'B', 'Y', 'T', 'E', 'S'], .cksBytes),
   (['T', 'X', '_', 'B', 'Y', 'T', 'E', 'S'], .txBytes),
   (['R', 'X', '_', 'B', 'Y', 'T', 'E', 'S'], .rxBytes),
   (['E', 'N', 'C', 'O', 'D', 'E'], .encode),
   (['D', 'E', 'C', 'O', 'D', 'E'], .decode),
   (['S', 'E', 'N', 'D'], .send)]

/-- The directive `.word` (R85). -/
def wordDirective : List Char := ['.', 'w', 'o', 'r', 'd']

/-- What a name stands for in a table of names. -/
def lookupName {α : Type} : List (List Char × α) → List Char → Option α
  | [], _ => none
  | (k, v) :: rest, name => if k = name then some v else lookupName rest name

/-- A space or a tab. -/
def isBlankChar (c : Char) : Bool := c == ' ' || c == '\t'

/-- A text without the blanks before and after it. -/
def trimBlanks (cs : List Char) : List Char :=
  ((cs.dropWhile isBlankChar).reverse.dropWhile isBlankChar).reverse

/-- The parts of a text between its commas. -/
def splitCommas : List Char → List (List Char)
  | [] => [[]]
  | c :: cs =>
    if c = ',' then [] :: splitCommas cs
    else
      match splitCommas cs with
      | [] => [[c]]
      | part :: parts => (c :: part) :: parts

/-- The value of a digit in a base of at most 16. -/
def digitValue (base : Nat) (c : Char) : Option Nat :=
  let n := c.toNat
  let v :=
    if 48 ≤ n ∧ n ≤ 57 then n - 48
    else if 65 ≤ n ∧ n ≤ 70 then n - 55
    else if 97 ≤ n ∧ n ≤ 102 then n - 87
    else base
  if v < base then some v else none

/-- The value of a text of digits, most significant first. -/
def digitsValue (base : Nat) : Nat → List Char → Option Nat
  | acc, [] => some acc
  | acc, c :: cs =>
    match digitValue base c with
    | none => none
    | some v => digitsValue base (acc * base + v) cs

/-- An immediate: `0xHH`, or a decimal 0 to 255 (R85). -/
def parseByte (cs : List Char) : Option Byte :=
  match cs with
  | ['0', 'x', h1, h0] => (digitsValue 16 0 [h1, h0]).map (BitVec.ofNat 8)
  | [] => none
  | other => (digitsValue 10 0 other).bind fun v => if v ≤ 255 then some (BitVec.ofNat 8 v) else none

/-- The word of a `.word` directive: `0xHHHH` (R85). -/
def parseWord (cs : List Char) : Option Word :=
  match cs with
  | ['0', 'x', h3, h2, h1, h0] => (digitsValue 16 0 [h3, h2, h1, h0]).map (BitVec.ofNat 16)
  | _ => none

/-- Every value of a list of optional ones, or none. -/
def allSome {α : Type} : List (Option α) → Option (List α)
  | [] => some []
  | none :: _ => none
  | some v :: rest => (allSome rest).map (v :: ·)

/-- A list of bytes separated by commas; nothing is the empty list (R85). -/
def parseBytes (cs : List Char) : Option (List Byte) :=
  if cs = [] then some [] else allSome ((splitCommas cs).map fun part => parseByte (trimBlanks part))

/-- One line of program text; `none` where R85 gives it no meaning. DESIGN CHOICE: an operand written
on a command that takes none (`NOP 0x05`) is accepted, since R85 has one form for all commands, and
goes into `imm`, where the command ignores it (R81). Assumption log 18. -/
def parseLine (text : List Char) : Option AsmLine :=
  let body := trimBlanks (text.takeWhile (· != ';'))
  let name := body.takeWhile fun c => !isBlankChar c
  let operand := trimBlanks (body.dropWhile fun c => !isBlankChar c)
  if name = [] then some .blank
  else if name = wordDirective then (parseWord operand).map .word
  else
    match lookupName opcodeNames name with
    | some op =>
      if operand = [] then some (.command op 0x00) else (parseByte operand).map (.command op)
    | none =>
      match lookupName pseudoNames name with
      | some p => (parseBytes operand).map (.pseudo p)
      | none => none

/-- The command words of a program text, line by line (R85). -/
def assemble (lines : List (List Char)) : Option (List Word) :=
  (allSome (lines.map parseLine)).map fun parsed => (parsed.map expandLine).flatten

end Sys2Proof.Machine
end

