-- ==== Sys2Proof/Safety.lean ====
section
/-! DEFINITION. The terms that claims are stated in: the constraints on the parameters (00_scope.md
R9, R12), the properties of `CKS_ALG` (42_checksum.md R171), the host's duties (70_reset_and_hazards.md
R276, R277), runs of several commands, and the invariant of the block's state. -/

namespace Sys2Proof

/-! ### Parameters -/

/-- The constraints R9 puts on the parameters. -/
def Params.wf (p : Params) : Bool :=
  decide (Machine.worstCase (p.maxMsg + Config.ovh) ≤ p.encCap ∧ 1 ≤ p.decCap ∧ 2 ≤ p.rxbufSize)

/-- Every length the block keeps fits the register that holds it (R12, R34, R26, R30, R37). The
defaults of R6 and R9 have it. Assumption log 9. -/
def Params.fitsWidths (p : Params) : Bool :=
  decide (p.maxMsg + 1 < 65536 ∧ p.encCap < 65536 ∧ p.decCap < 4294967295 ∧ p.rxbufSize < 65536)

/-- The inbound buffers carry every frame the outbound framer can build, as the capacities of R9
do (R212: "every frame `TX_SEND` can build is accepted"). -/
def Params.carriesEveryFrame (p : Params) : Bool :=
  decide (Machine.worstCase (p.maxMsg + Config.ovh) + 1 ≤ p.rxbufSize ∧ p.maxMsg + Config.ovh ≤ p.decCap)

end Sys2Proof

namespace Sys2Proof.Machine

/-! ### Properties of the checksum algorithm -/

/-- Bit `k` of a byte list, bytes in order and each byte from its most significant bit, the order
in which a CRC takes them. Assumption log 14. -/
def bitAt (x : List Byte) (k : Nat) : Bool := (x.getD (k / 8) 0).getMsbD (k % 8)

/-- (P3) of R171: a change of exactly one bit changes the checksum. -/
def SingleBitSensitive (maxMsg : Nat) (alg : CksAlg) : Prop :=
  ∀ x x' : List Byte, x.length ≤ maxMsg + 2 → x'.length = x.length →
    (∃ k, ∀ j, bitAt x j ≠ bitAt x' j ↔ j = k) → checksum alg x' ≠ checksum alg x

/-- (P4) of R171: a change inside one span of at most 16 consecutive bits changes the checksum. -/
def BurstSensitive (maxMsg : Nat) (alg : CksAlg) : Prop :=
  ∀ x x' : List Byte, x.length ≤ maxMsg + 2 → x'.length = x.length → x' ≠ x →
    (∃ start, ∀ k, bitAt x k ≠ bitAt x' k → start ≤ k ∧ k < start + 16) →
    checksum alg x' ≠ checksum alg x

/-! ### Duties of the host and the collaborators -/

/-- R277: the `txq_free` shown at a `TX_SEND` does not exceed the queue's true free space. -/
def QueueDuty (trueFree : Nat) (s : State) : Prop := s.txqFree ≤ trueFree

/-- R276: the host issues one `RX_BYTE` for each byte it pops, in pop order. -/
def InboundDuty (popped : List Byte) (issued : List Instr) : Prop := issued = popped.map .rxByte

/-! ### Runs -/

/-- Several instructions one after another, stopping at the first that does not answer next. -/
def execAll : List Instr → State → Host.Outcome State Fault Refusal
  | [], s => .next s
  | i :: is, s =>
    match exec i s with
    | .next t => execAll is t
    | .fault r => .fault r
    | .refused r => .refused r

/-- The commands of the pseudo-instruction `ENCODE` (R85). -/
def encodeProgram (x : List Byte) : List Instr := .encStart :: (x.map .encFeed ++ [.encFinish])

/-- The commands of the pseudo-instruction `DECODE` (R85). -/
def decodeProgram (x : List Byte) : List Instr := .decStart :: (x.map .decFeed ++ [.decFinish])

/-- Whether an instruction is a command of the command port (R82), not a code byte (R92). -/
def isCommand (i : Instr) : Bool :=
  match i with
  | .nop => true
  | .encStart => true
  | .encFeed _ => true
  | .encFinish => true
  | .decStart => true
  | .decFeed _ => true
  | .decFinish => true
  | .cksInit => true
  | .cksFeed _ => true
  | .txBegin => true
  | .txPush _ => true
  | .txSend => true
  | .rxByte _ => true
  | .codeIllegal => false
  | .codeDataZ1 _ => false
  | .codeDataMax => false
  | .codeReserved => false
  | .codeZrun _ => false
  | .codeDataZ2 _ => false

/-! ### The opcode map and the units -/

/-- R82's table as the spec prints it: opcode and mnemonic. -/
def opcodeMap : List (Byte × String) :=
  [(0x00, "NOP"), (0x10, "ENC_START"), (0x11, "ENC_FEED"), (0x12, "ENC_FINISH"),
   (0x20, "DEC_START"), (0x21, "DEC_FEED"), (0x22, "DEC_FINISH"), (0x30, "CKS_INIT"),
   (0x31, "CKS_FEED"), (0x40, "TX_BEGIN"), (0x41, "TX_PUSH"), (0x42, "TX_SEND"),
   (0x50, "RX_BYTE")]

/-- The register numbers of R46's table. -/
def registerNumbers : List Byte :=
  [0x00, 0x01, 0x02, 0x03, 0x04, 0x05, 0x06, 0x07, 0x08, 0x09, 0x0A, 0x0B, 0x0C, 0x0D,
   0x10, 0x11, 0x12, 0x13, 0x14, 0x15, 0x16]

/-- The units of R278, the control commands, and the code bytes. -/
inductive BlockUnit where
  | control
  | encoder
  | decoder
  | checksum
  | outbound
  | inbound
  | codeBytes
deriving DecidableEq, Repr

/-- The unit an instruction acts on (R82, R92, R278). -/
def unitOf (i : Instr) : BlockUnit :=
  match i with
  | .nop => .control
  | .encStart => .encoder
  | .encFeed _ => .encoder
  | .encFinish => .encoder
  | .decStart => .decoder
  | .decFeed _ => .decoder
  | .decFinish => .decoder
  | .cksInit => .checksum
  | .cksFeed _ => .checksum
  | .txBegin => .outbound
  | .txPush _ => .outbound
  | .txSend => .outbound
  | .rxByte _ => .inbound
  | .codeIllegal => .codeBytes
  | .codeDataZ1 _ => .codeBytes
  | .codeDataMax => .codeBytes
  | .codeReserved => .codeBytes
  | .codeZrun _ => .codeBytes
  | .codeDataZ2 _ => .codeBytes

/-- A state with its seven link statistics counters (R45) at zero. -/
def eraseCounters (s : State) : State :=
  { s with
    tx := { s.tx with good := 0, nobuf := 0, oversize := 0 }
    rx := { s.rx with good := 0, cksFail := 0, decFail := 0, oversize := 0 } }

/-! ### Stuffed data as blocks -/

/-- A well-formed block (R89): a code byte, and exactly as many literals as it calls for, none of
them zero. -/
def goodBlock (b : Byte × List Byte) : Prop :=
  ∃ trailing, codeClass b.1 = some (b.2.length, trailing) ∧ (0 : Byte) ∉ b.2

/-- `Z(c)` of a block (R89). -/
def blockZeros (b : Byte × List Byte) : Nat :=
  match codeClass b.1 with
  | none => 0
  | some (_, trailing) => trailing

/-- The bytes of a sequence of blocks: each code byte and then its literals (R89). -/
def blockBytes (bs : List (Byte × List Byte)) : List Byte := (bs.map fun b => b.1 :: b.2).flatten

/-- What a sequence of blocks stands for: each block's literals followed by its zeros (R89). -/
def blockExpansion (bs : List (Byte × List Byte)) : List Byte :=
  (bs.map fun b => b.2 ++ zeros (blockZeros b)).flatten

/-- `Z` of the last block, 0 when there is none (R142). -/
def lastZeros (bs : List (Byte × List Byte)) : Nat := (bs.getLast?.map blockZeros).getD 0

/-- What taking a block of some literals and zeros does to a decode loop (R140, R141 (b) and (c)):
the literals and the zeros join the expansion, or the loop ends in FORMAT. -/
def TakesBlock (literals trailing : Nat) (before after : Scan) : Prop :=
  if literals ≤ before.rest.length ∧ (0 : Byte) ∉ before.rest.take literals then
    after.rest = before.rest.drop literals ∧
    after.out = before.out ++ before.rest.take literals ++ List.replicate trailing 0 ∧
    after.lastZ = trailing ∧ after.format = false
  else scanResult after = .format ∧ scanActive after = false

/-- The frames that successive sends of one payload queue, one `txq_free` for each send: a frame
that does not fit is not queued, and its number is used up (R194, R195). -/
def queuedFrames (alg : CksAlg) (payload : List Byte) : Word → List Nat → List (List Byte)
  | _, [] => []
  | seq, free :: frees =>
    let frame := buildFrame alg payload seq
    (if frame.length ≤ free then [frame] else []) ++ queuedFrames alg payload (seq + 1) frees

/-! ### The invariant -/

/-- A buffer holds a byte at each index below `n` and nowhere else. -/
abbrev holdsExactly (m : Memory) (n : Nat) : Prop := m.map Prod.fst = List.range n

/-- What every reachable state has. The parameters are legal (R9, R12). `ENC_NIN` counts `ENC_IN`,
whose worst case fits `ENC_CAP` (R25, R27, R116). The output buffers are written exactly inside the
window of R61, `ENC_OUT` without a zero (R93). No output is valid while an encoding or decoding is
open (R61). `TXPAY` is written exactly below `TX_LEN` and `MAX_MSG` (R34, R191), `RXBUF` exactly
below `RX_CNT`, which stays below `RXBUF_SIZE`, with no zero (R37, R211 to R213). -/
structure Inv (s : State) : Prop where
  paramsLegal : s.params.wf = true
  paramsFit : s.params.fitsWidths = true
  encCount : s.enc.nin.toNat = s.enc.inp.length
  encFits : worstCase s.enc.inp.length ≤ s.params.encCap
  encLenCap : s.enc.len.toNat ≤ s.params.encCap
  encOutHolds : holdsExactly s.enc.out s.enc.len.toNat
  encOutNoZero : ∀ c ∈ s.enc.out, c.2 ≠ 0
  encLenValid : s.enc.outValid = false → s.enc.len = 0
  encOpenInvalid : s.enc.phase = .opened → s.enc.outValid = false ∧ s.enc.status ≠ .seqErr
  decOutHolds : holdsExactly s.dec.out (if s.dec.outValid then s.dec.len.toNat else 0)
  decLenCap : s.dec.outValid = true → s.dec.len.toNat ≤ s.params.decCap
  decOpenInvalid : s.dec.phase = .opened → s.dec.outValid = false ∧ s.dec.status = .ok
  txLenCap : s.tx.len.toNat ≤ s.params.maxMsg + 1
  txPayHolds : holdsExactly s.tx.pay (min s.tx.len.toNat s.params.maxMsg)
  rxCntCap : s.rx.cnt.toNat < s.params.rxbufSize
  rxBufHolds : holdsExactly s.rx.buf s.rx.cnt.toNat
  rxBufNoZero : ∀ c ∈ s.rx.buf, c.2 ≠ 0

end Sys2Proof.Machine
end

