-- ==== Sys2Proof/Certificates/Slice0/Obligations.lean ====
section
/-! DEFINITION. The statements for the provers. OBLIGATIONS.json lists them. A clause
`t = { s with … := t.x }` is a statement's frame: everything of the state but the fields named is
unchanged, every buffer byte among it. -/

open Sys2Proof Sys2Proof.Machine

/-! ### Encodings -/

/-- Every well-formed instruction is what its encoding decodes to (30_encoding.md R80, R82, R90). -/
def Obligations.DecodingAnEncodedInstructionGivesItBack : Prop :=
  ∀ i : Instr, i.wellFormed = true → decode (encode i) = .ok i

/-- Every byte is the code byte of exactly one well-formed class and count (R90, R91). -/
def Obligations.EveryCodeByteHasOneClass : Prop :=
  ∀ c : Byte, (decodeCodeByte c).wellFormed = true ∧ encode (decodeCodeByte c) = .codeByte c

/-- R84: every command word decodes to the row of R82 that its upper byte selects, and every word
whose upper byte selects none is rejected. -/
def Obligations.CommandDecodingFollowsTheOpcodeMap : Prop :=
  ∀ w : Word,
    (∀ m : String, (BitVec.ofNat 8 (w.toNat / 256), m) ∈ opcodeMap →
      ∃ i : Instr, decodeCommand w = .ok i ∧ mnemonicOf i = m ∧ i.wellFormed = true) ∧
    ((∀ m : String, (BitVec.ofNat 8 (w.toNat / 256), m) ∉ opcodeMap) →
      decodeCommand w = .error (.unassignedOpcode (BitVec.ofNat 8 (w.toNat / 256))))

/-- R81: five commands take the lower byte as their data byte, as it is; every other word means the
same with any lower byte; an encoded command without an operand has 0x00 there. -/
def Obligations.OnlyDataCommandsUseTheImmediate : Prop :=
  (∀ imm : Byte,
    decodeCommand (commandWord 0x11 imm) = .ok (.encFeed imm) ∧
    decodeCommand (commandWord 0x21 imm) = .ok (.decFeed imm) ∧
    decodeCommand (commandWord 0x31 imm) = .ok (.cksFeed imm) ∧
    decodeCommand (commandWord 0x41 imm) = .ok (.txPush imm) ∧
    decodeCommand (commandWord 0x50 imm) = .ok (.rxByte imm)) ∧
  (∀ op imm : Byte, op ∉ [0x11, 0x21, 0x31, 0x41, 0x50] →
    decodeCommand (commandWord op imm) = decodeCommand (commandWord op 0x00)) ∧
  (∀ (i : Instr) (w : Word), encode i = .command w → w.toNat % 256 ≠ 0 →
    ∃ b : Byte, i ∈ [.encFeed b, .decFeed b, .cksFeed b, .txPush b, .rxByte b])

/-- Words written out from R82 and R90 decode to the instructions they stand for. -/
def Obligations.SampleWordsDecodeAsTheSpecPrintsThem : Prop :=
  decodeCommand 0x0000 = .ok .nop ∧ decodeCommand 0x00FF = .ok .nop ∧
  decodeCommand 0x10AB = .ok .encStart ∧ decodeCommand 0x1141 = .ok (.encFeed 0x41) ∧
  decodeCommand 0x2102 = .ok (.decFeed 0x02) ∧ decodeCommand 0x2200 = .ok .decFinish ∧
  decodeCommand 0x3131 = .ok (.cksFeed 0x31) ∧ decodeCommand 0x4200 = .ok .txSend ∧
  decodeCommand 0x50E1 = .ok (.rxByte 0xE1) ∧
  decodeCommand 0x1300 = .error (.unassignedOpcode 0x13) ∧
  decodeCodeByte 0x20 = .codeDataZ1 31 ∧ decodeCodeByte 0xD1 = .codeDataMax ∧
  decodeCodeByte 0xDF = .codeZrun 15 ∧ decodeCodeByte 0xFF = .codeDataZ2 31

/-- R85: the pseudo-instructions expand to one command per listed byte, in order. -/
def Obligations.PseudoInstructionsExpandInOrder : Prop :=
  ∀ bytes : List Byte,
    (expandPseudo .encBytes bytes).map decodeCommand = bytes.map (fun b => .ok (.encFeed b)) ∧
    (expandPseudo .decBytes bytes).map decodeCommand = bytes.map (fun b => .ok (.decFeed b)) ∧
    (expandPseudo .cksBytes bytes).map decodeCommand = bytes.map (fun b => .ok (.cksFeed b)) ∧
    (expandPseudo .txBytes bytes).map decodeCommand = bytes.map (fun b => .ok (.txPush b)) ∧
    (expandPseudo .rxBytes bytes).map decodeCommand = bytes.map (fun b => .ok (.rxByte b)) ∧
    (expandPseudo .encode bytes).map decodeCommand = (encodeProgram bytes).map .ok ∧
    (expandPseudo .decode bytes).map decodeCommand = (decodeProgram bytes).map .ok ∧
    (expandPseudo .send bytes).map decodeCommand =
      (.txBegin :: (bytes.map .txPush ++ [.txSend])).map .ok

/-! ### Steps, reset and the host's reads -/

/-- The next command word at the port, when it decodes, is what the step runs, in the state with
that word taken and the `txq_free` that came with it shown (R11, R21, R255). That the word waits in
`port` is the model's choice (assumption logs 1 and 3). -/
def Obligations.StepRunsTheDecodedCommand : Prop :=
  ∀ (s : State) (w : Word) (free : Nat) (inputs : List Input) (i : Instr),
    scanActive s.scan = false → s.port = .command w free :: inputs → decodeCommand w = .ok i →
    step s = exec i { s with port := inputs, txqFree := free }

/-- While a decode loop has a byte to read, the step reads it as a code byte and runs its class
(R92, R140). The loop as steps of its own is the model's choice (assumption log 6). -/
def Obligations.StepRunsTheDecodedCodeByte : Prop :=
  ∀ (s : State) (c : Byte) (rest : List Byte), s.scan.format = false → s.scan.rest = c :: rest →
    step s = exec (decodeCodeByte c) { s with scan := { s.scan with rest := rest } }

/-- R231: an unassigned opcode sets `CMD_STATUS` to ILLEGAL and changes nothing else of the block
(the word is taken from the port), and every assigned command clears it again. -/
def Obligations.UnassignedOpcodeOnlySetsIllegal : Prop :=
  (∀ (s : State) (w : Word) (free : Nat) (inputs : List Input) (r : Reject),
    scanActive s.scan = false → s.port = .command w free :: inputs → decodeCommand w = .error r →
    step s = .next { s with port := inputs, txqFree := free, cmdStatus := .illegal }) ∧
  (∀ (i : Instr) (s : State), isCommand i = true → ∃ t, exec i s = .next t ∧ t.cmdStatus = .ok)

/-- R232: after a command word, `CMD_STATUS` says whether its opcode is assigned. -/
def Obligations.CmdStatusReportsWhetherTheOpcodeIsAssigned : Prop :=
  ∀ (s : State) (w : Word) (free : Nat) (inputs : List Input),
    scanActive s.scan = false → s.port = .command w free :: inputs →
    ∃ t, step s = .next t ∧
      ((∃ m : String, (BitVec.ofNat 8 (w.toNat / 256), m) ∈ opcodeMap) → t.cmdStatus = .ok) ∧
      ((∀ m : String, (BitVec.ofNat 8 (w.toNat / 256), m) ∉ opcodeMap) → t.cmdStatus = .illegal)

/-- R240: every instruction completes normally, in every state. -/
def Obligations.EveryInstructionCompletes : Prop :=
  ∀ (i : Instr) (s : State), ∃ t, exec i s = .next t

/-- R271: the reset values, CKS under the algorithm left open. -/
def Obligations.ResetLeavesTheSpecifiedValues : Prop :=
  (∀ n ∈ registerNumbers, readReg State.reset n =
    if n = 0x08 then some (CksAlg.openParameter.initVal.setWidth 32) else some 0) ∧
  CksAlg.refCrc.initVal = 0xFFFF ∧
  State.reset.enc.inp = [] ∧ State.reset.dec.inp = [] ∧
  (∀ i, memRead State.reset.enc.out i = none ∧ memRead State.reset.dec.out i = none ∧
    memRead State.reset.tx.pay i = none ∧ memRead State.reset.rx.buf i = none) ∧
  (∀ (id : BufferId) (i : Nat), bufRead State.reset id i = none)

/-- The reset event puts every register at its reset value, empties the hidden lists and leaves the
buffers unwritten (R270, R271). It does not reach the outputs already made (R273), the parameters
(R2) or the inputs still pending; that it is an input of the port is the model's choice (assumption
log 12). -/
def Obligations.ResetEventRestoresTheResetValues : Prop :=
  ∀ (s : State) (inputs : List Input), scanActive s.scan = false → s.port = .reset :: inputs →
    ∃ t, step s = .next t ∧
      (∀ n ∈ registerNumbers, readReg t n =
        if n = 0x08 then some (s.params.cksAlg.initVal.setWidth 32) else some 0) ∧
      t.enc.inp = [] ∧ t.dec.inp = [] ∧
      (∀ i, memRead t.enc.out i = none ∧ memRead t.dec.out i = none ∧
        memRead t.tx.pay i = none ∧ memRead t.rx.buf i = none) ∧
      (∀ (id : BufferId) (i : Nat), bufRead t id i = none) ∧
      t.txOut = s.txOut ∧ t.deliveries = s.deliveries ∧ t.params = s.params ∧ t.port = inputs ∧
      t.txqFree = s.txqFree

/-- R46, R47: each assigned register number reads its register, zero-extended; every other number
has no value. -/
def Obligations.RegisterReadsFollowTheRegisterMap : Prop :=
  ∀ s : State,
    registerNumbers.map (readReg s) =
      [(cmdStatusCode s.cmdStatus).setWidth 32, (phaseBit s.enc.phase).setWidth 32,
       (encStatusCode s.enc.status).setWidth 32, s.enc.nin.setWidth 32, s.enc.len.setWidth 32,
       (phaseBit s.dec.phase).setWidth 32, (decStatusCode s.dec.status).setWidth 32, s.dec.len,
       s.cks.setWidth 32, (txStatusCode s.tx.status).setWidth 32, s.tx.len.setWidth 32,
       s.tx.seq.setWidth 32, s.tx.flen.setWidth 32, s.rx.cnt.setWidth 32, s.rx.good,
       s.rx.cksFail, s.rx.decFail, s.rx.oversize, s.tx.good, s.tx.nobuf, s.tx.oversize].map some ∧
    (∀ n : Byte, n ∉ registerNumbers → readReg s n = none)

/-- R61: in every state that meets the invariant, a buffer read has a value exactly inside the
window, and TXPAY and RXBUF have no read port. -/
def Obligations.BufferReadsHaveAValueExactlyInTheWindow : Prop :=
  ∀ s : State, Inv s → ∀ i : Nat,
    ((bufRead s .encOut i).isSome = true ↔ s.enc.outValid = true ∧ i < s.enc.len.toNat) ∧
    ((bufRead s .decOut i).isSome = true ↔ s.dec.outValid = true ∧ i < s.dec.len.toNat) ∧
    bufRead s .txPay i = none ∧ bufRead s .rxBuf i = none

/-! ### Control -/

/-- R230: `NOP`, with any immediate, changes nothing but `CMD_STATUS`. -/
def Obligations.NopOnlyClearsCmdStatus : Prop :=
  (∀ s : State, exec .nop s = .next { s with cmdStatus := .ok }) ∧
  (∀ imm : Byte, decodeCommand (commandWord 0x00 imm) = .ok .nop)

/-! ### The byte-stuffing functions -/

/-- R93, R114 (a): the encoder's output holds no 0x00. -/
def Obligations.EncoderOutputHoldsNoZero : Prop :=
  ∀ x : List Byte, (0 : Byte) ∉ stuffEncode x

/-- R111: the encoder's output is at most `W(|x|)` long, exactly that long when x holds no 0x00; it
is never empty (R114 (b)). -/
def Obligations.EncoderOutputFitsTheWorstCase : Prop :=
  (∀ x : List Byte, 1 ≤ (stuffEncode x).length ∧
    (stuffEncode x).length ≤ x.length + x.length / 208 + 1 ∧
    ((0 : Byte) ∉ x → (stuffEncode x).length = x.length + x.length / 208 + 1)) ∧
  (∀ n : Nat, worstCase n = n + n / 208 + 1) ∧
  worstCase 0 = 1 ∧ worstCase 132 = 133 ∧ worstCase 207 = 208 ∧ worstCase 208 = 210

/-- R114 (c): decoding an encoding gives the input back, whatever the input. -/
def Obligations.DecoderInvertsEncoder : Prop :=
  ∀ x : List Byte, stuffDecode (stuffEncode x) = .ok x

/-- R113: the streaming encoder emits exactly `Encode(x)`. -/
def Obligations.StreamingEncoderEmitsTheEncoding : Prop :=
  ∀ x : List Byte, streamEncode x = stuffEncode x

/-- The class that decoding gives a code byte carries the counts that `CodeClass` gives it (R90,
R91). -/
def Obligations.DecodedClassesCarryTheCountsOfCodeClass : Prop :=
  ∀ c : Byte,
    codeClass c =
      match decodeCodeByte c with
      | .codeDataZ1 literals => some (literals, 1)
      | .codeDataMax => some (208, 0)
      | .codeZrun run => some (0, run)
      | .codeDataZ2 literals => some (literals, 2)
      | _ => none

/-- R89, R140, R142: a stuffed list decodes to OK exactly when it is a sequence of well-formed
blocks, and then to what the blocks stand for, without the last byte when the last block carries
zeros. -/
def Obligations.DecoderAcceptsExactlyBlockSequences : Prop :=
  ∀ stuffed d : List Byte, stuffDecode stuffed = .ok d ↔
    ∃ bs : List (Byte × List Byte), (∀ b ∈ bs, goodBlock b) ∧ stuffed = blockBytes bs ∧
      d = if 1 ≤ lastZeros bs then (blockExpansion bs).dropLast else blockExpansion bs

/-- R141: after any well-formed blocks, a code byte 0x00 or 0xD2, a truncated block, and a zero
literal are each FORMAT. -/
def Obligations.MalformedStuffingIsFormat : Prop :=
  ∀ (bs : List (Byte × List Byte)) (c : Byte) (rest : List Byte), (∀ b ∈ bs, goodBlock b) →
    (c = 0x00 ∨ c = 0xD2 → stuffDecode (blockBytes bs ++ c :: rest) = .format) ∧
    (∀ literals trailing, codeClass c = some (literals, trailing) → rest.length < literals →
      stuffDecode (blockBytes bs ++ c :: rest) = .format) ∧
    (∀ literals trailing, codeClass c = some (literals, trailing) → literals ≤ rest.length →
      (0 : Byte) ∈ rest.take literals → stuffDecode (blockBytes bs ++ c :: rest) = .format)

/-! ### Code bytes as decoder instructions -/

/-- R140: each code-byte class with literals or zeros takes its block, and nothing but the decode
loop changes. -/
def Obligations.CodeBytesTakeTheirBlocks : Prop :=
  (∀ (literals : Nat) (s : State), ∃ t, exec (.codeDataZ1 literals) s = .next t ∧
    t = { s with scan := t.scan } ∧ TakesBlock literals 1 s.scan t.scan) ∧
  (∀ s : State, ∃ t, exec .codeDataMax s = .next t ∧
    t = { s with scan := t.scan } ∧ TakesBlock 208 0 s.scan t.scan) ∧
  (∀ (run : Nat) (s : State), ∃ t, exec (.codeZrun run) s = .next t ∧
    t = { s with scan := t.scan } ∧ TakesBlock 0 run s.scan t.scan) ∧
  (∀ (literals : Nat) (s : State), ∃ t, exec (.codeDataZ2 literals) s = .next t ∧
    t = { s with scan := t.scan } ∧ TakesBlock literals 2 s.scan t.scan)

/-- R141 (a): code bytes 0x00 and 0xD2 end the decode loop with FORMAT, and nothing else changes. -/
def Obligations.BadCodeBytesEndTheDecodeWithFormat : Prop :=
  ∀ (i : Instr) (s : State), i = .codeIllegal ∨ i = .codeReserved →
    ∃ t, exec i s = .next t ∧ t = { s with scan := t.scan } ∧ scanResult t.scan = .format ∧
      scanActive t.scan = false

/-- Stepping a decode loop, one code byte a step, ends after at most one step for each byte with
the result of `Decode`, and touches nothing else (R92, R140). The loop as steps of its own is the
model's choice (assumption log 6). -/
def Obligations.SteppingTheDecodeLoopComputesDecode : Prop :=
  ∀ (s : State) (stuffed : List Byte), s.scan = scanStart stuffed →
    ∃ (k : Nat) (t : State), k ≤ stuffed.length ∧ Host.Core.run Sys2Proof.core k s = .next t ∧
      t = { s with scan := t.scan } ∧ scanActive t.scan = false ∧
      scanResult t.scan = stuffDecode stuffed

/-! ### The stand-alone encoder -/

/-- R115: `ENC_START`, with any immediate, opens an empty encoding, whatever was open, and no byte
of `ENC_OUT` can be read. -/
def Obligations.EncStartOpensAnEmptyEncoding : Prop :=
  (∀ imm : Byte, decodeCommand (commandWord 0x10 imm) = .ok .encStart) ∧
  ∀ s : State, ∃ t, exec .encStart s = .next t ∧
    t = { s with cmdStatus := .ok, enc := t.enc } ∧
    t.enc.phase = .opened ∧ t.enc.inp = [] ∧ t.enc.nin = 0 ∧ t.enc.len = 0 ∧ t.enc.status = .ok ∧
    (∀ i, bufRead t .encOut i = none)

/-- R116: the encoding and the four outcomes of `ENC_FEED`; with `ENC_CAP` = 133 byte 133 is the
first refused; `ENC_NIN` stays below `ENC_CAP`. -/
def Obligations.EncFeedAcceptsDropsOrRefuses : Prop :=
  (∀ imm : Byte, decodeCommand (commandWord 0x11 imm) = .ok (.encFeed imm)) ∧
  ∀ (b : Byte) (s : State), ∃ t, exec (.encFeed b) s = .next t ∧
    t = { s with cmdStatus := .ok, enc := t.enc } ∧
    (if s.enc.phase = .idle then t.enc = { s.enc with status := .seqErr }
      else if s.enc.status = .noMem then t.enc = s.enc
      else if s.params.encCap < (s.enc.nin.toNat + 1) + (s.enc.nin.toNat + 1) / 208 + 1 then
        t.enc = { s.enc with status := .noMem }
      else t.enc = { s.enc with inp := s.enc.inp ++ [b], nin := s.enc.nin + 1 }) ∧
    (s.params.encCap = 133 → s.enc.phase = .opened → s.enc.status ≠ .noMem →
      (t.enc.status = .noMem ↔ 132 ≤ s.enc.nin.toNat)) ∧
    (s.enc.nin.toNat ≤ s.params.encCap - 1 → t.enc.nin.toNat ≤ s.params.encCap - 1)

/-- R117: the encoding and the three outcomes of `ENC_FINISH`. The output is readable byte by byte
where the bytes accepted fit `ENC_CAP`, as every `ENC_FEED` ensures. -/
def Obligations.EncFinishWritesTheEncoding : Prop :=
  (∀ imm : Byte, decodeCommand (commandWord 0x12 imm) = .ok .encFinish) ∧
  ∀ s : State, ∃ t, exec .encFinish s = .next t ∧
    t = { s with cmdStatus := .ok, enc := t.enc } ∧
    t.enc.inp = s.enc.inp ∧ t.enc.nin = s.enc.nin ∧
    (if s.enc.phase = .idle then t.enc = { s.enc with status := .seqErr }
      else if s.enc.status = .noMem then
        t.enc.phase = .idle ∧ t.enc.status = .noMem ∧ t.enc.len = 0 ∧
          ∀ i, bufRead t .encOut i = none
      else
        t.enc.phase = .idle ∧ t.enc.status = .ok ∧
          (worstCase s.enc.inp.length ≤ s.params.encCap → s.params.encCap < 65536 →
            t.enc.len.toNat = (stuffEncode s.enc.inp).length ∧
            ∀ i, bufRead t .encOut i = (stuffEncode s.enc.inp)[i]?))

/-- R118: an input fed in any split between one `ENC_START` and its `ENC_FINISH` is encoded as its
concatenation, for an `ENC_CAP` whose lengths fit `ENC_LEN` (assumption log 9). -/
def Obligations.EncodingDoesNotDependOnTheSplit : Prop :=
  ∀ (s : State) (parts : List (List Byte)), s.params.encCap < 65536 →
    worstCase parts.flatten.length ≤ s.params.encCap →
    ∃ t, execAll (.encStart :: ((parts.map fun x => x.map Instr.encFeed).flatten ++ [.encFinish])) s
        = .next t ∧
      t = { s with cmdStatus := .ok, enc := t.enc } ∧ t.enc.phase = .idle ∧ t.enc.status = .ok ∧
      t.enc.nin.toNat = parts.flatten.length ∧
      t.enc.len.toNat = (stuffEncode parts.flatten).length ∧
      ∀ i, bufRead t .encOut i = (stuffEncode parts.flatten)[i]?

/-- An input whose worst case does not fit `ENC_CAP` ends in NOMEM with no output, whatever its
bytes are and however small its encoding would be (R116, R117). -/
def Obligations.OverlongEncodingEndsInNomem : Prop :=
  ∀ (s : State) (x : List Byte), s.params.wf = true → s.params.encCap < 65536 →
    s.params.encCap < worstCase x.length →
    ∃ t, execAll (encodeProgram x) s = .next t ∧ t = { s with cmdStatus := .ok, enc := t.enc } ∧
      t.enc.phase = .idle ∧ t.enc.status = .noMem ∧ t.enc.len = 0 ∧
      ∀ i, bufRead t .encOut i = none

/-! ### The stand-alone decoder -/

/-- R145: `DEC_START`, with any immediate, opens an empty decoding, whatever was open, and no byte
of `DEC_OUT` can be read. -/
def Obligations.DecStartOpensAnEmptyDecoding : Prop :=
  (∀ imm : Byte, decodeCommand (commandWord 0x20 imm) = .ok .decStart) ∧
  ∀ s : State, ∃ t, exec .decStart s = .next t ∧
    t = { s with cmdStatus := .ok, dec := t.dec } ∧
    t.dec.phase = .opened ∧ t.dec.inp = [] ∧ t.dec.len = 0 ∧ t.dec.status = .ok ∧
    (∀ i, bufRead t .decOut i = none)

/-- R146: `DEC_FEED` appends its immediate, any byte, to an open decoding, and is SEQERR without
one. -/
def Obligations.DecFeedAppendsItsByte : Prop :=
  (∀ imm : Byte, decodeCommand (commandWord 0x21 imm) = .ok (.decFeed imm)) ∧
  ∀ (b : Byte) (s : State), ∃ t, exec (.decFeed b) s = .next t ∧
    t = { s with cmdStatus := .ok, dec := t.dec } ∧
    (if s.dec.phase = .idle then t.dec = { s.dec with status := .seqErr }
      else t.dec = { s.dec with inp := s.dec.inp ++ [b] })

/-- R147: the encoding and the four outcomes of `DEC_FINISH`, FORMAT before NOMEM (R144). -/
def Obligations.DecFinishReportsTheDecode : Prop :=
  (∀ imm : Byte, decodeCommand (commandWord 0x22 imm) = .ok .decFinish) ∧
  ∀ s : State, ∃ t, exec .decFinish s = .next t ∧
    t = { s with cmdStatus := .ok, dec := t.dec } ∧ t.dec.inp = s.dec.inp ∧
      (if s.dec.phase = .idle then t.dec = { s.dec with status := .seqErr }
        else t.dec.phase = .idle ∧
          match stuffDecode s.dec.inp with
          | .format =>
            t.dec.status = .format ∧ t.dec.len = 0 ∧ ∀ i, bufRead t .decOut i = none
          | .ok d =>
            if s.params.decCap < d.length then
              t.dec.status = .noMem ∧ t.dec.len.toNat = min d.length (2 ^ 32 - 1) ∧
                (∀ i, bufRead t .decOut i = none) ∧
                ∀ i, s.params.decCap ≤ i → memRead t.dec.out i = none
            else
              t.dec.status = .ok ∧ t.dec.len.toNat = min d.length (2 ^ 32 - 1) ∧
                (d.length < 2 ^ 32 - 1 → ∀ i, bufRead t .decOut i = d[i]?))

/-- R148: `ENCODE x`, then `DECODE` of the bytes read from `ENC_OUT`, ends with DEC_STATUS = OK and
x in `DEC_OUT`. -/
def Obligations.EncodeThenDecodeReturnsTheInput : Prop :=
  ∀ (s : State) (x : List Byte), s.params.fitsWidths = true → x.length ≤ s.params.decCap →
    worstCase x.length ≤ s.params.encCap →
    ∃ t y u, execAll (encodeProgram x) s = .next t ∧
      (List.range t.enc.len.toNat).map (bufRead t .encOut) = y.map some ∧
      execAll (decodeProgram y) t = .next u ∧
      u.dec.status = .ok ∧ u.dec.len.toNat = x.length ∧ ∀ i, bufRead u .decOut i = x[i]?

/-! ### The checksum unit -/

/-- R172: `CKS_INIT` sets the running checksum to the initial value of the algorithm in use, and a
second one changes nothing. -/
def Obligations.CksInitLoadsTheInitialValue : Prop :=
  ∀ s : State, ∃ t, exec .cksInit s = .next t ∧
    t = { s with cmdStatus := .ok, cks := s.params.cksAlg.initVal } ∧ exec .cksInit t = .next t

/-- R173: `CKS_FEED` folds one byte; after `CKS_INIT` and feeds of x, CKS = Checksum(x). R170: that
is the left fold of the algorithm's step from its initial value. -/
def Obligations.CksFeedsFoldTheirBytes : Prop :=
  (∀ (alg : CksAlg) (a b : List Byte), checksum alg [] = alg.initVal ∧
    checksum alg (a ++ b) = b.foldl (cksStep alg) (checksum alg a)) ∧
  (∀ b : Byte, decodeCommand (commandWord 0x31 b) = .ok (.cksFeed b)) ∧
  (∀ (b : Byte) (s : State), exec (.cksFeed b) s =
    .next { s with cmdStatus := .ok, cks := cksStep s.params.cksAlg s.cks b }) ∧
  (∀ (x : List Byte) (s : State), execAll (.cksInit :: x.map .cksFeed) s =
    .next { s with cmdStatus := .ok, cks := checksum s.params.cksAlg x })

/-- R175: a decoded frame passes exactly when it has at least 4 bytes and its last two are the
checksum of the others, low byte first; so a frame built by R174 passes, and one with any other
checksum field fails. -/
def Obligations.VerificationAcceptsExactlyTheMatchingChecksum : Prop :=
  (∀ (alg : CksAlg) (d : List Byte), verifies alg d = true ↔
    4 ≤ d.length ∧ (checksum alg (d.take (d.length - 2))).toNat =
      (d.getD (d.length - 2) 0).toNat + 256 * (d.getD (d.length - 1) 0).toNat) ∧
  (∀ (alg : CksAlg) (payload : List Byte) (seq c : Word),
    verifies alg (payload ++ le16 seq ++ le16 c) = true ↔ c = checksum alg (payload ++ le16 seq))

/-- Under (P3) of R171, a frame that passes verification fails it with any single bit flipped, in
the bytes covered or in the checksum field (R175). -/
def Obligations.ASingleFlippedBitFailsVerification : Prop :=
  ∀ (alg : CksAlg) (maxMsg : Nat) (d d' : List Byte), SingleBitSensitive maxMsg alg →
    d.length ≤ maxMsg + 4 → verifies alg d = true → d'.length = d.length →
    (∃ k, ∀ j, bitAt d j ≠ bitAt d' j ↔ j = k) → verifies alg d' = false

/-! ### The outbound framer -/

/-- R190: `TX_BEGIN`, with any immediate, empties the staged payload and leaves the rest of the
framer as it is. -/
def Obligations.TxBeginEmptiesTheStage : Prop :=
  (∀ imm : Byte, decodeCommand (commandWord 0x40 imm) = .ok .txBegin) ∧
  ∀ s : State, ∃ t, exec .txBegin s = .next t ∧ t = { s with cmdStatus := .ok, tx := t.tx } ∧
    t.tx = { s.tx with len := 0, pay := t.tx.pay } ∧ exec .txBegin t = .next t

/-- R191: `TX_PUSH` appends its immediate below `MAX_MSG`, and saturates `TX_LEN` at `MAX_MSG` + 1.
-/
def Obligations.TxPushAppendsOrSaturates : Prop :=
  (∀ imm : Byte, decodeCommand (commandWord 0x41 imm) = .ok (.txPush imm)) ∧
  ∀ (b : Byte) (s : State), ∃ t, exec (.txPush b) s = .next t ∧
    t = { s with cmdStatus := .ok, tx := t.tx } ∧
    (if s.tx.len.toNat < s.params.maxMsg then
        t.tx = { s.tx with len := s.tx.len + 1, pay := t.tx.pay } ∧
        (∀ a, memRead t.tx.pay a =
          if a = s.tx.len.toNat then some b else memRead s.tx.pay a)
      else if s.tx.len.toNat = s.params.maxMsg then
        t.tx = { s.tx with len := BitVec.ofNat 16 (s.params.maxMsg + 1) }
      else t.tx = s.tx)

/-- After `TX_BEGIN` and pushes of x, `TX_LEN` is |x| up to `MAX_MSG` + 1, and x is the payload
staged when it is not too large (R190, R191, R192). -/
def Obligations.PushedBytesAreTheStagedPayload : Prop :=
  ∀ (s : State) (x : List Byte), s.params.fitsWidths = true →
    ∃ t, execAll (.txBegin :: x.map .txPush) s = .next t ∧
      t = { s with cmdStatus := .ok, tx := t.tx } ∧
      t.tx = { s.tx with len := t.tx.len, pay := t.tx.pay } ∧
      t.tx.len.toNat = min x.length (s.params.maxMsg + 1) ∧
      (x.length ≤ s.params.maxMsg → stagedPayload t.tx = x)

/-- R192: the encoding and the three outcomes of `TX_SEND`. In every state, an oversized payload
uses no sequence number; a frame refused for space uses one; a queued frame is pushed whole. -/
def Obligations.TxSendOutcomes : Prop :=
  (∀ imm : Byte, decodeCommand (commandWord 0x42 imm) = .ok .txSend) ∧
  ∀ s : State, ∃ t, exec .txSend s = .next t ∧
    (s.params.maxMsg < s.tx.len.toNat →
      t = { s with cmdStatus := .ok
                   tx := { s.tx with status := .oversize, oversize := s.tx.oversize + 1 } }) ∧
    (s.tx.len.toNat ≤ s.params.maxMsg →
      ∀ frame, frame = buildFrame s.params.cksAlg (stagedPayload s.tx) s.tx.seq →
        (s.txqFree < frame.length →
          t = { s with cmdStatus := .ok
                       tx := { s.tx with status := .noBuf, seq := s.tx.seq + 1
                                         flen := BitVec.ofNat 16 frame.length
                                         nobuf := s.tx.nobuf + 1 } }) ∧
        (frame.length ≤ s.txqFree →
          t = { s with cmdStatus := .ok, txOut := s.txOut ++ frame
                       tx := { s.tx with status := .ok, seq := s.tx.seq + 1
                                         flen := BitVec.ofNat 16 frame.length
                                         good := s.tx.good + 1 } }))

/-- R198: a send of an oversized payload counts one oversize and pushes nothing. -/
def Obligations.OversizedSendIsCountedAndPushesNothing : Prop :=
  ∀ s : State, s.params.maxMsg < s.tx.len.toNat → ∃ t, exec .txSend s = .next t ∧
    t.tx.oversize = s.tx.oversize + 1 ∧ t.tx.status = .oversize ∧ t.txOut = s.txOut ∧
    t.tx.seq = s.tx.seq

/-- R196: the size of a built frame, whose stuffed body meets no capacity failure. -/
def Obligations.BuiltFramesFitTheBound : Prop :=
  ∀ (alg : CksAlg) (payload : List Byte) (seq : Word) (maxMsg : Nat), payload.length ≤ maxMsg →
    (∀ p : Params, p.wf = true → p.maxMsg = maxMsg →
      (stuffEncode (wireFrame alg payload seq)).length ≤ p.encCap) ∧
    (buildFrame alg payload seq).length ≤ worstCase (payload.length + 4) + 1 ∧
    worstCase (payload.length + 4) + 1 ≤ worstCase (maxMsg + 4) + 1 ∧ worstCase (128 + 4) + 1 = 134

/-- R86, R93: a built frame is its stuffed body and one delimiter, the only 0x00 in it; the body
decodes to the payload, the sequence number and the checksum, each field low byte first. -/
def Obligations.BuiltFrameCarriesTheWireFrame : Prop :=
  ∀ (alg : CksAlg) (payload : List Byte) (seq : Word), ∃ body,
    buildFrame alg payload seq = body ++ [0] ∧ (0 : Byte) ∉ body ∧
    stuffDecode body = .ok (payload ++ [seq.extractLsb' 0 8, seq.extractLsb' 8 8] ++
      [(checksum alg (payload ++ le16 seq)).extractLsb' 0 8,
       (checksum alg (payload ++ le16 seq)).extractLsb' 8 8])

/-- R197: N successive sends that pass the oversize check carry the numbers s, s + 1, … and leave
SEQ = s + N modulo 65536, whatever free space each of them meets. -/
def Obligations.SuccessiveSendsCarrySuccessiveNumbers : Prop :=
  ∀ (s : State) (frees : List Nat) (inputs : List Input), scanActive s.scan = false →
    s.port = frees.map (Input.command 0x4200) ++ inputs → s.tx.len.toNat ≤ s.params.maxMsg →
    ∃ t : State, Host.Core.run Sys2Proof.core frees.length s = .next t ∧ t.port = inputs ∧
      t.tx.seq = s.tx.seq + BitVec.ofNat 16 frees.length ∧
      t.tx.len = s.tx.len ∧ stagedPayload t.tx = stagedPayload s.tx ∧
      t.txOut = s.txOut ++
        (queuedFrames s.params.cksAlg (stagedPayload s.tx) s.tx.seq frees).flatten

/-- R195: a frame is pushed whole or not at all; under the duty of R277 what is pushed fits the
queue's true free space. -/
def Obligations.FramesAreQueuedWholeOrNotAtAll : Prop :=
  ∀ (s : State) (trueFree : Nat), QueueDuty trueFree s → ∃ t, exec .txSend s = .next t ∧
    ((t.txOut = s.txOut ∧ t.tx.good = s.tx.good) ∨
     (t.txOut = s.txOut ++ buildFrame s.params.cksAlg (stagedPayload s.tx) s.tx.seq ∧
      (buildFrame s.params.cksAlg (stagedPayload s.tx) s.tx.seq).length ≤ trueFree ∧
      t.tx.good = s.tx.good + 1))

/-! ### The inbound deframer -/

/-- R211, R212: a byte other than the delimiter is accumulated, or fills the buffer and discards
it. -/
def Obligations.LineBytesAccumulateOrDiscard : Prop :=
  ∀ (b : Byte) (s : State), b ≠ 0 → ∃ t, exec (.rxByte b) s = .next t ∧
    t = { s with cmdStatus := .ok, rx := t.rx } ∧
    (if (s.rx.cnt + 1).toNat = s.params.rxbufSize then
        t.rx = { s.rx with cnt := 0, buf := t.rx.buf, oversize := s.rx.oversize + 1 }
      else
        t.rx = { s.rx with cnt := s.rx.cnt + 1, buf := t.rx.buf } ∧
        (∀ a, memRead t.rx.buf a =
          if a = s.rx.cnt.toNat ∧ a < s.params.rxbufSize then some b else memRead s.rx.buf a))

/-- R213 to R217: the outcomes of a delimiter. The frame is `RXBUF[0 .. RX_CNT)`; a decode failure,
a short frame or a mismatch is counted, and a good frame's body is delivered without the sequence
number and the checksum. -/
def Obligations.DelimiterCountsOneOutcome : Prop :=
  ∀ s : State, ∃ t, exec (.rxByte 0) s = .next t ∧ t.rx.cnt = 0 ∧
    t = { s with cmdStatus := .ok, rx := t.rx, deliveries := t.deliveries } ∧
    match stuffDecode (bufBytes .rxBuf s.rx.buf s.rx.cnt.toNat) with
    | .format =>
      t.deliveries = s.deliveries ∧
      t.rx = { s.rx with cnt := 0, buf := t.rx.buf, decFail := s.rx.decFail + 1 }
    | .ok d =>
      if s.params.decCap < d.length then
        t.deliveries = s.deliveries ∧
        t.rx = { s.rx with cnt := 0, buf := t.rx.buf, decFail := s.rx.decFail + 1 }
      else if 4 ≤ d.length ∧
          checksum s.params.cksAlg (d.take (d.length - 2)) =
            u16le (d.getD (d.length - 2) 0) (d.getD (d.length - 1) 0) then
        t.deliveries = s.deliveries ++ [d.take (d.length - 4)] ∧
        t.rx = { s.rx with cnt := 0, buf := t.rx.buf, good := s.rx.good + 1 }
      else
        t.deliveries = s.deliveries ∧
        t.rx = { s.rx with cnt := 0, buf := t.rx.buf, cksFail := s.rx.cksFail + 1 }

/-- R217, R218, under the duty of R276: a frame built for any payload and any sequence number,
received whole into an empty buffer, counts as good and delivers exactly that payload, once. -/
def Obligations.ReceivingABuiltFrameDeliversItsPayload : Prop :=
  ∀ (s : State) (payload : List Byte) (seq : Word) (issued : List Instr),
    s.params.fitsWidths = true → s.params.carriesEveryFrame = true →
    payload.length ≤ s.params.maxMsg → s.rx.cnt = 0 → s.rx.buf = [] →
    InboundDuty (buildFrame s.params.cksAlg payload seq) issued →
    execAll issued s =
      .next { s with cmdStatus := .ok
                     rx := { s.rx with good := s.rx.good + 1 }
                     deliveries := s.deliveries ++ [payload] }

/-- R219 (d), under (P4) of R171 and the duty of R276: a frame whose wire frame has one payload byte
changed, stuffed again and received, counts as a checksum failure and delivers nothing. -/
def Obligations.ACorruptedPayloadByteIsCaught : Prop :=
  ∀ (s : State) (payload : List Byte) (seq : Word) (k : Nat) (b : Byte) (issued : List Instr),
    BurstSensitive s.params.maxMsg s.params.cksAlg → s.params.fitsWidths = true →
    s.params.carriesEveryFrame = true → payload.length ≤ s.params.maxMsg → s.rx.cnt = 0 →
    s.rx.buf = [] → k < payload.length → payload[k]? ≠ some b →
    InboundDuty (stuffEncode (payload.set k b ++ le16 seq ++
      le16 (genCks s.params.cksAlg payload seq)) ++ [0]) issued →
    execAll issued s =
      .next { s with cmdStatus := .ok, rx := { s.rx with cksFail := s.rx.cksFail + 1 } }

/-! ### The whole block -/

/-- The invariant holds after reset. -/
def Obligations.ResetMeetsTheInvariant : Prop := Inv State.reset

/-- Every step from a state that meets the invariant leads to one that meets it: `ENC_NIN` counts
`ENC_IN` and its worst case fits (R25, R116), the output buffers are written exactly inside the
window of R61, `TXPAY` exactly below `TX_LEN` (R191), `RXBUF` exactly below `RX_CNT` <
`RXBUF_SIZE` (R37), and no buffer at or above its size (R60). -/
def Obligations.EveryStepKeepsTheInvariant : Prop :=
  ∀ s t : State, Inv s → step s = .next t → Inv t

/-- R171 (P1): no step changes the parameters, the checksum algorithm among them. -/
def Obligations.NoStepChangesTheParameters : Prop :=
  ∀ s : State, ∃ t, step s = .next t ∧ t.params = s.params

/-- R45, R219 (a): every instruction leaves each link statistics counter or raises it by exactly 1
modulo 2^32; only `RX_BYTE` raises an inbound and only `TX_SEND` an outbound one; a delimiter raises
exactly one of three, another line byte at most RX_OVERSIZE. -/
def Obligations.CountersOnlyCountUp : Prop :=
  ∀ (i : Instr) (s : State), ∃ t, exec i s = .next t ∧
    (∀ c ∈ [(s.rx.good, t.rx.good), (s.rx.cksFail, t.rx.cksFail), (s.rx.decFail, t.rx.decFail),
        (s.rx.oversize, t.rx.oversize), (s.tx.good, t.tx.good), (s.tx.nobuf, t.tx.nobuf),
        (s.tx.oversize, t.tx.oversize)], c.2 = c.1 ∨ c.2 = c.1 + 1) ∧
    ((∀ b, i ≠ .rxByte b) → t.rx.good = s.rx.good ∧ t.rx.cksFail = s.rx.cksFail ∧
      t.rx.decFail = s.rx.decFail ∧ t.rx.oversize = s.rx.oversize) ∧
    (i ≠ .txSend → t.tx.good = s.tx.good ∧ t.tx.nobuf = s.tx.nobuf ∧
      t.tx.oversize = s.tx.oversize) ∧
    (i = .rxByte 0 → t.rx.oversize = s.rx.oversize ∧
      (t.rx.good + t.rx.cksFail + t.rx.decFail =
        s.rx.good + s.rx.cksFail + s.rx.decFail + 1)) ∧
    (∀ b, b ≠ 0 → i = .rxByte b → t.rx.good = s.rx.good ∧ t.rx.cksFail = s.rx.cksFail ∧
      t.rx.decFail = s.rx.decFail)

/-- R45: "No rule of the block reads a counter": two states that differ in their counters only
stay so under every instruction. -/
def Obligations.NoInstructionReadsACounter : Prop :=
  ∀ (i : Instr) (s s' : State), eraseCounters s = eraseCounters s' →
    ∃ t t', exec i s = .next t ∧ exec i s' = .next t' ∧ eraseCounters t = eraseCounters t'

/-- R278: a command leaves the state of every other unit as it is. The clauses on `scan`, `port`,
`txqFree` and `params` speak of fields that are the model's choice (assumption logs 6, 1, 3 and 9);
so do those on the outputs `txOut` and `deliveries` (assumption log 4). -/
def Obligations.UnitsKeepToTheirOwnState : Prop :=
  ∀ (i : Instr) (s : State), ∃ t, exec i s = .next t ∧
    (unitOf i ≠ .encoder → t.enc = s.enc) ∧ (unitOf i ≠ .decoder → t.dec = s.dec) ∧
    (unitOf i ≠ .checksum → t.cks = s.cks) ∧
    (unitOf i ≠ .outbound → t.tx = s.tx ∧ t.txOut = s.txOut) ∧
    (unitOf i ≠ .inbound → t.rx = s.rx ∧ t.deliveries = s.deliveries) ∧
    (unitOf i ≠ .codeBytes → t.scan = s.scan) ∧
    t.params = s.params ∧ t.port = s.port ∧ t.txqFree = s.txqFree

/-- R278: commands of different units may run in either order, from every state. That the code bytes
count as a unit of their own is the model's choice (assumption log 6). -/
def Obligations.CommandsOfDifferentUnitsCommute : Prop :=
  ∀ (i j : Instr) (s : State), unitOf i ≠ unitOf j →
    ∃ t, execAll [i, j] s = .next t ∧ execAll [j, i] s = .next t

/-- R67: a repeat of `NOP`, `CKS_INIT`, `ENC_START`, `DEC_START` or `TX_BEGIN` leaves the same
state as one issue. -/
def Obligations.RepeatingAnIdempotentCommandChangesNothing : Prop :=
  ∀ (i : Instr) (s : State), i ∈ [.nop, .cksInit, .encStart, .decStart, .txBegin] →
    ∃ t, exec i s = .next t ∧ exec i t = .next t
end

