-- ==== Sys2Proof/Laws/Memory.lean ====
section
/-! SUPPORT. The laws of the buffers: what a write leaves at each index, that every write keeps the
canonical form, and what a run of writes from index 0 leaves. -/

namespace Sys2Proof.Machine

@[simp] theorem memRead_nil (a : Nat) : memRead [] a = none := rfl

@[simp] theorem memRead_memWrite_same (m : Memory) (a : Nat) (b : Byte) :
    memRead (memWrite m a b) a = some b := by
  induction m with
  | nil => simp [memWrite, memRead]
  | cons c m ih =>
    obtain ⟨k, v⟩ := c
    simp only [memWrite]
    split
    · simp [memRead]
    · split
      · simp [memRead]
      · have hk : k ≠ a := by omega
        simp [memRead, hk, ih]

@[simp] theorem memRead_memWrite_other (m : Memory) {a i : Nat} (b : Byte) (h : i ≠ a) :
    memRead (memWrite m a b) i = memRead m i := by
  induction m with
  | nil => simp [memWrite, memRead, Ne.symm h]
  | cons c m ih =>
    obtain ⟨k, v⟩ := c
    simp only [memWrite]
    split
    · simp [memRead, Ne.symm h]
    · split
      · next hka => subst hka; simp [memRead, Ne.symm h]
      · simp [memRead, ih]

/-- Every index of a written buffer is the index written or one it had. -/
theorem mem_keys_memWrite {m : Memory} {a k : Nat} {b : Byte}
    (h : k ∈ (memWrite m a b).map Prod.fst) : k = a ∨ k ∈ m.map Prod.fst := by
  induction m with
  | nil => simpa [memWrite] using h
  | cons c m ih =>
    obtain ⟨k', v⟩ := c
    simp only [memWrite] at h
    split at h
    · simpa using h
    · split at h
      · simp only [List.map_cons, List.mem_cons] at h ⊢
        tauto
      · simp only [List.map_cons, List.mem_cons] at h ⊢
        rcases h with h | h
        · tauto
        · rcases ih h with h | h <;> tauto

/-- A write keeps the canonical form. -/
theorem memWrite_wf {m : Memory} (a : Nat) (b : Byte) (h : Memory.wf m = true) :
    Memory.wf (memWrite m a b) = true := by
  simp only [Memory.wf, decide_eq_true_eq] at h ⊢
  induction m with
  | nil => simp [memWrite]
  | cons c m ih =>
    obtain ⟨k, v⟩ := c
    simp only [List.map_cons, List.pairwise_cons] at h
    simp only [memWrite]
    split
    · next hak =>
      simp only [List.map_cons, List.pairwise_cons, List.mem_cons]
      exact ⟨fun x hx => hx.elim (fun e => e ▸ hak) fun hx => lt_trans hak (h.1 x hx), h.1, h.2⟩
    · split
      · next hak => subst hak; simpa using h
      · next h1 h2 =>
        simp only [List.map_cons, List.pairwise_cons]
        refine ⟨fun x hx => ?_, ih h.2⟩
        rcases mem_keys_memWrite hx with rfl | hx
        · omega
        · exact h.1 x hx

theorem bufWrite_wf {size : Nat} {m : Memory} (i : Nat) (v : Byte) (h : Memory.wf m = true) :
    Memory.wf (bufWrite size m i v) = true := by
  unfold bufWrite
  split
  · exact memWrite_wf i v h
  · exact h

theorem bufWriteAll_wf {size : Nat} (bs : List Byte) {m : Memory} (i : Nat)
    (h : Memory.wf m = true) : Memory.wf (bufWriteAll size m i bs) = true := by
  induction bs generalizing m i with
  | nil => exact h
  | cons b bs ih => exact ih _ (bufWrite_wf i b h)

/-- A buffer that holds exactly its first `n` bytes has the canonical form. -/
theorem wf_of_holdsExactly {m : Memory} {n : Nat} (h : holdsExactly m n) :
    Memory.wf m = true := by
  simp only [Memory.wf, decide_eq_true_eq, holdsExactly] at h ⊢
  exact h ▸ List.pairwise_lt_range

/-- A write above every index of a buffer adds its cell at the end. -/
theorem memWrite_above {m : Memory} {a : Nat} (b : Byte) (h : ∀ k ∈ m.map Prod.fst, k < a) :
    memWrite m a b = m ++ [(a, b)] := by
  induction m with
  | nil => rfl
  | cons c m ih =>
    obtain ⟨k, v⟩ := c
    have hk : k < a := h k (by simp)
    have h1 : ¬ a < k := by omega
    have h2 : ¬ a = k := by omega
    simp [memWrite, h1, h2, ih fun k hk => h k (by simp [hk])]

/-- The write of the next byte of a buffer that holds exactly its first `n` bytes. -/
theorem memWrite_next {m : Memory} {n : Nat} (b : Byte) (h : holdsExactly m n) :
    memWrite m n b = m ++ [(n, b)] :=
  memWrite_above b fun k hk => by
    rw [h] at hk
    exact List.mem_range.mp hk

theorem holdsExactly_nil : holdsExactly [] 0 := rfl

theorem holdsExactly_bufWrite {size n : Nat} {m : Memory} (b : Byte) (hn : n < size)
    (h : holdsExactly m n) : holdsExactly (bufWrite size m n b) (n + 1) := by
  rw [bufWrite, if_pos hn, memWrite_next b h]
  simp only [holdsExactly] at h ⊢
  simp [h, List.range_succ]

/-- A run of writes from the end of a buffer adds one cell for each byte, in order. -/
theorem bufWriteAll_append {size : Nat} (bs : List Byte) {m : Memory} {n : Nat}
    (hn : n + bs.length ≤ size) (h : holdsExactly m n) :
    bufWriteAll size m n bs = m ++ (bs.zipIdx n).map Prod.swap := by
  induction bs generalizing m n with
  | nil => simp [bufWriteAll]
  | cons b bs ih =>
    simp only [List.length_cons] at hn
    have hw := holdsExactly_bufWrite (size := size) b (by omega) h
    rw [bufWriteAll, ih (by omega) hw, bufWrite, if_pos (by omega), memWrite_next b h]
    simp

theorem holdsExactly_bufWriteAll {size : Nat} {bs : List Byte} (hn : bs.length ≤ size) :
    holdsExactly (bufWriteAll size [] 0 bs) bs.length := by
  rw [bufWriteAll_append bs (by omega) holdsExactly_nil]
  simp [holdsExactly, List.map_map, List.range_eq_range', Function.comp_def]

/-- After a run of writes from index 0, index `i` reads as byte `i` of the run. -/
theorem memRead_bufWriteAll {size : Nat} {bs : List Byte} (hn : bs.length ≤ size) (i : Nat) :
    memRead (bufWriteAll size [] 0 bs) i = bs[i]? := by
  rw [bufWriteAll_append bs (by omega) holdsExactly_nil]
  have key : ∀ (l : List Byte) (n i : Nat), memRead ((l.zipIdx n).map Prod.swap) (n + i) = l[i]? := by
    intro l
    induction l with
    | nil => simp
    | cons b l ih =>
      intro n i
      cases i with
      | zero => simp [memRead]
      | succ i =>
        have hne : n ≠ n + (i + 1) := by omega
        have := ih (n + 1) i
        rw [show n + 1 + i = n + (i + 1) by omega] at this
        simpa [memRead, hne] using this
  simpa using key bs 0 i

/-- Every byte that a run of writes from index 0 leaves is a byte of the run. -/
theorem mem_bufWriteAll {size : Nat} {bs : List Byte} (hn : bs.length ≤ size) {c : Host.Cell}
    (hc : c ∈ bufWriteAll size [] 0 bs) : c.2 ∈ bs := by
  rw [bufWriteAll_append bs (by omega) holdsExactly_nil] at hc
  simp only [List.nil_append, List.mem_map, Prod.exists, Prod.swap] at hc
  obtain ⟨b, k, hbk, rfl⟩ := hc
  exact List.fst_mem_of_mem_zipIdx hbk

/-- What the block reads of a buffer that holds exactly its first `n` bytes are its bytes. -/
theorem bufBytes_of_holdsExactly (id : BufferId) {m : Memory} {n : Nat} (h : holdsExactly m n) :
    bufBytes id m n = m.map Prod.snd := by
  have key : ∀ (m : Memory) (s : Nat), m.map Prod.fst = List.range' s m.length →
      (List.range' s m.length).map (bufByte id m) = m.map Prod.snd := by
    intro m
    induction m with
    | nil => simp
    | cons c m ih =>
      intro s hs
      obtain ⟨k, v⟩ := c
      simp only [List.length_cons, List.range'_succ, List.map_cons, List.cons.injEq] at hs ⊢
      obtain ⟨rfl, hs⟩ := hs
      refine ⟨by simp [bufByte, memRead], ?_⟩
      rw [← ih (k + 1) hs]
      refine List.map_congr_left fun i hi => ?_
      have : k ≠ i := by
        have := List.mem_range'_1.mp hi
        omega
      simp [bufByte, memRead, this]
  have hlen : m.length = n := by simpa [holdsExactly] using congrArg List.length h
  subst hlen
  simp only [holdsExactly] at h
  rw [List.range_eq_range'] at h
  rw [bufBytes, List.range_eq_range']
  exact key m 0 h

/-- Writing the next byte appends it to what the block reads. -/
theorem bufBytes_bufWrite_next (id : BufferId) {size n : Nat} {m : Memory} (b : Byte)
    (hn : n < size) (h : holdsExactly m n) :
    bufBytes id (bufWrite size m n b) (n + 1) = bufBytes id m n ++ [b] := by
  rw [bufBytes_of_holdsExactly id (holdsExactly_bufWrite b hn h), bufBytes_of_holdsExactly id h,
    bufWrite, if_pos hn, memWrite_next b h]
  simp

end Sys2Proof.Machine
end

