-- ==== Sys2Proof/Laws/State.lean ====
section
/-! SUPPORT. One lemma per field of State per named update: what the update leaves in that field. -/

namespace Sys2Proof.Machine

/-! ### `State.setCmdStatus` -/

@[simp] theorem State.setCmdStatus_cmdStatus (s : State) (v : CmdStatus) : (s.setCmdStatus v).cmdStatus = v := rfl
@[simp] theorem State.setCmdStatus_enc (s : State) (v : CmdStatus) : (s.setCmdStatus v).enc = s.enc := rfl
@[simp] theorem State.setCmdStatus_dec (s : State) (v : CmdStatus) : (s.setCmdStatus v).dec = s.dec := rfl
@[simp] theorem State.setCmdStatus_cks (s : State) (v : CmdStatus) : (s.setCmdStatus v).cks = s.cks := rfl
@[simp] theorem State.setCmdStatus_tx (s : State) (v : CmdStatus) : (s.setCmdStatus v).tx = s.tx := rfl
@[simp] theorem State.setCmdStatus_rx (s : State) (v : CmdStatus) : (s.setCmdStatus v).rx = s.rx := rfl
@[simp] theorem State.setCmdStatus_params (s : State) (v : CmdStatus) : (s.setCmdStatus v).params = s.params := rfl
@[simp] theorem State.setCmdStatus_port (s : State) (v : CmdStatus) : (s.setCmdStatus v).port = s.port := rfl
@[simp] theorem State.setCmdStatus_txqFree (s : State) (v : CmdStatus) : (s.setCmdStatus v).txqFree = s.txqFree := rfl
@[simp] theorem State.setCmdStatus_txOut (s : State) (v : CmdStatus) : (s.setCmdStatus v).txOut = s.txOut := rfl
@[simp] theorem State.setCmdStatus_deliveries (s : State) (v : CmdStatus) : (s.setCmdStatus v).deliveries = s.deliveries := rfl
@[simp] theorem State.setCmdStatus_scan (s : State) (v : CmdStatus) : (s.setCmdStatus v).scan = s.scan := rfl

/-! ### `State.setEnc` -/

@[simp] theorem State.setEnc_cmdStatus (s : State) (v : EncUnit) : (s.setEnc v).cmdStatus = s.cmdStatus := rfl
@[simp] theorem State.setEnc_enc (s : State) (v : EncUnit) : (s.setEnc v).enc = v := rfl
@[simp] theorem State.setEnc_dec (s : State) (v : EncUnit) : (s.setEnc v).dec = s.dec := rfl
@[simp] theorem State.setEnc_cks (s : State) (v : EncUnit) : (s.setEnc v).cks = s.cks := rfl
@[simp] theorem State.setEnc_tx (s : State) (v : EncUnit) : (s.setEnc v).tx = s.tx := rfl
@[simp] theorem State.setEnc_rx (s : State) (v : EncUnit) : (s.setEnc v).rx = s.rx := rfl
@[simp] theorem State.setEnc_params (s : State) (v : EncUnit) : (s.setEnc v).params = s.params := rfl
@[simp] theorem State.setEnc_port (s : State) (v : EncUnit) : (s.setEnc v).port = s.port := rfl
@[simp] theorem State.setEnc_txqFree (s : State) (v : EncUnit) : (s.setEnc v).txqFree = s.txqFree := rfl
@[simp] theorem State.setEnc_txOut (s : State) (v : EncUnit) : (s.setEnc v).txOut = s.txOut := rfl
@[simp] theorem State.setEnc_deliveries (s : State) (v : EncUnit) : (s.setEnc v).deliveries = s.deliveries := rfl
@[simp] theorem State.setEnc_scan (s : State) (v : EncUnit) : (s.setEnc v).scan = s.scan := rfl

/-! ### `State.setDec` -/

@[simp] theorem State.setDec_cmdStatus (s : State) (v : DecUnit) : (s.setDec v).cmdStatus = s.cmdStatus := rfl
@[simp] theorem State.setDec_enc (s : State) (v : DecUnit) : (s.setDec v).enc = s.enc := rfl
@[simp] theorem State.setDec_dec (s : State) (v : DecUnit) : (s.setDec v).dec = v := rfl
@[simp] theorem State.setDec_cks (s : State) (v : DecUnit) : (s.setDec v).cks = s.cks := rfl
@[simp] theorem State.setDec_tx (s : State) (v : DecUnit) : (s.setDec v).tx = s.tx := rfl
@[simp] theorem State.setDec_rx (s : State) (v : DecUnit) : (s.setDec v).rx = s.rx := rfl
@[simp] theorem State.setDec_params (s : State) (v : DecUnit) : (s.setDec v).params = s.params := rfl
@[simp] theorem State.setDec_port (s : State) (v : DecUnit) : (s.setDec v).port = s.port := rfl
@[simp] theorem State.setDec_txqFree (s : State) (v : DecUnit) : (s.setDec v).txqFree = s.txqFree := rfl
@[simp] theorem State.setDec_txOut (s : State) (v : DecUnit) : (s.setDec v).txOut = s.txOut := rfl
@[simp] theorem State.setDec_deliveries (s : State) (v : DecUnit) : (s.setDec v).deliveries = s.deliveries := rfl
@[simp] theorem State.setDec_scan (s : State) (v : DecUnit) : (s.setDec v).scan = s.scan := rfl

/-! ### `State.setCks` -/

@[simp] theorem State.setCks_cmdStatus (s : State) (v : Word) : (s.setCks v).cmdStatus = s.cmdStatus := rfl
@[simp] theorem State.setCks_enc (s : State) (v : Word) : (s.setCks v).enc = s.enc := rfl
@[simp] theorem State.setCks_dec (s : State) (v : Word) : (s.setCks v).dec = s.dec := rfl
@[simp] theorem State.setCks_cks (s : State) (v : Word) : (s.setCks v).cks = v := rfl
@[simp] theorem State.setCks_tx (s : State) (v : Word) : (s.setCks v).tx = s.tx := rfl
@[simp] theorem State.setCks_rx (s : State) (v : Word) : (s.setCks v).rx = s.rx := rfl
@[simp] theorem State.setCks_params (s : State) (v : Word) : (s.setCks v).params = s.params := rfl
@[simp] theorem State.setCks_port (s : State) (v : Word) : (s.setCks v).port = s.port := rfl
@[simp] theorem State.setCks_txqFree (s : State) (v : Word) : (s.setCks v).txqFree = s.txqFree := rfl
@[simp] theorem State.setCks_txOut (s : State) (v : Word) : (s.setCks v).txOut = s.txOut := rfl
@[simp] theorem State.setCks_deliveries (s : State) (v : Word) : (s.setCks v).deliveries = s.deliveries := rfl
@[simp] theorem State.setCks_scan (s : State) (v : Word) : (s.setCks v).scan = s.scan := rfl

/-! ### `State.setTx` -/

@[simp] theorem State.setTx_cmdStatus (s : State) (v : TxUnit) : (s.setTx v).cmdStatus = s.cmdStatus := rfl
@[simp] theorem State.setTx_enc (s : State) (v : TxUnit) : (s.setTx v).enc = s.enc := rfl
@[simp] theorem State.setTx_dec (s : State) (v : TxUnit) : (s.setTx v).dec = s.dec := rfl
@[simp] theorem State.setTx_cks (s : State) (v : TxUnit) : (s.setTx v).cks = s.cks := rfl
@[simp] theorem State.setTx_tx (s : State) (v : TxUnit) : (s.setTx v).tx = v := rfl
@[simp] theorem State.setTx_rx (s : State) (v : TxUnit) : (s.setTx v).rx = s.rx := rfl
@[simp] theorem State.setTx_params (s : State) (v : TxUnit) : (s.setTx v).params = s.params := rfl
@[simp] theorem State.setTx_port (s : State) (v : TxUnit) : (s.setTx v).port = s.port := rfl
@[simp] theorem State.setTx_txqFree (s : State) (v : TxUnit) : (s.setTx v).txqFree = s.txqFree := rfl
@[simp] theorem State.setTx_txOut (s : State) (v : TxUnit) : (s.setTx v).txOut = s.txOut := rfl
@[simp] theorem State.setTx_deliveries (s : State) (v : TxUnit) : (s.setTx v).deliveries = s.deliveries := rfl
@[simp] theorem State.setTx_scan (s : State) (v : TxUnit) : (s.setTx v).scan = s.scan := rfl

/-! ### `State.setRx` -/

@[simp] theorem State.setRx_cmdStatus (s : State) (v : RxUnit) : (s.setRx v).cmdStatus = s.cmdStatus := rfl
@[simp] theorem State.setRx_enc (s : State) (v : RxUnit) : (s.setRx v).enc = s.enc := rfl
@[simp] theorem State.setRx_dec (s : State) (v : RxUnit) : (s.setRx v).dec = s.dec := rfl
@[simp] theorem State.setRx_cks (s : State) (v : RxUnit) : (s.setRx v).cks = s.cks := rfl
@[simp] theorem State.setRx_tx (s : State) (v : RxUnit) : (s.setRx v).tx = s.tx := rfl
@[simp] theorem State.setRx_rx (s : State) (v : RxUnit) : (s.setRx v).rx = v := rfl
@[simp] theorem State.setRx_params (s : State) (v : RxUnit) : (s.setRx v).params = s.params := rfl
@[simp] theorem State.setRx_port (s : State) (v : RxUnit) : (s.setRx v).port = s.port := rfl
@[simp] theorem State.setRx_txqFree (s : State) (v : RxUnit) : (s.setRx v).txqFree = s.txqFree := rfl
@[simp] theorem State.setRx_txOut (s : State) (v : RxUnit) : (s.setRx v).txOut = s.txOut := rfl
@[simp] theorem State.setRx_deliveries (s : State) (v : RxUnit) : (s.setRx v).deliveries = s.deliveries := rfl
@[simp] theorem State.setRx_scan (s : State) (v : RxUnit) : (s.setRx v).scan = s.scan := rfl

/-! ### `State.setScan` -/

@[simp] theorem State.setScan_cmdStatus (s : State) (v : Scan) : (s.setScan v).cmdStatus = s.cmdStatus := rfl
@[simp] theorem State.setScan_enc (s : State) (v : Scan) : (s.setScan v).enc = s.enc := rfl
@[simp] theorem State.setScan_dec (s : State) (v : Scan) : (s.setScan v).dec = s.dec := rfl
@[simp] theorem State.setScan_cks (s : State) (v : Scan) : (s.setScan v).cks = s.cks := rfl
@[simp] theorem State.setScan_tx (s : State) (v : Scan) : (s.setScan v).tx = s.tx := rfl
@[simp] theorem State.setScan_rx (s : State) (v : Scan) : (s.setScan v).rx = s.rx := rfl
@[simp] theorem State.setScan_params (s : State) (v : Scan) : (s.setScan v).params = s.params := rfl
@[simp] theorem State.setScan_port (s : State) (v : Scan) : (s.setScan v).port = s.port := rfl
@[simp] theorem State.setScan_txqFree (s : State) (v : Scan) : (s.setScan v).txqFree = s.txqFree := rfl
@[simp] theorem State.setScan_txOut (s : State) (v : Scan) : (s.setScan v).txOut = s.txOut := rfl
@[simp] theorem State.setScan_deliveries (s : State) (v : Scan) : (s.setScan v).deliveries = s.deliveries := rfl
@[simp] theorem State.setScan_scan (s : State) (v : Scan) : (s.setScan v).scan = v := rfl

/-! ### `State.pushTx` -/

@[simp] theorem State.pushTx_cmdStatus (s : State) (v : List Byte) : (s.pushTx v).cmdStatus = s.cmdStatus := rfl
@[simp] theorem State.pushTx_enc (s : State) (v : List Byte) : (s.pushTx v).enc = s.enc := rfl
@[simp] theorem State.pushTx_dec (s : State) (v : List Byte) : (s.pushTx v).dec = s.dec := rfl
@[simp] theorem State.pushTx_cks (s : State) (v : List Byte) : (s.pushTx v).cks = s.cks := rfl
@[simp] theorem State.pushTx_tx (s : State) (v : List Byte) : (s.pushTx v).tx = s.tx := rfl
@[simp] theorem State.pushTx_rx (s : State) (v : List Byte) : (s.pushTx v).rx = s.rx := rfl
@[simp] theorem State.pushTx_params (s : State) (v : List Byte) : (s.pushTx v).params = s.params := rfl
@[simp] theorem State.pushTx_port (s : State) (v : List Byte) : (s.pushTx v).port = s.port := rfl
@[simp] theorem State.pushTx_txqFree (s : State) (v : List Byte) : (s.pushTx v).txqFree = s.txqFree := rfl
@[simp] theorem State.pushTx_txOut (s : State) (v : List Byte) : (s.pushTx v).txOut = s.txOut ++ v := rfl
@[simp] theorem State.pushTx_deliveries (s : State) (v : List Byte) : (s.pushTx v).deliveries = s.deliveries := rfl
@[simp] theorem State.pushTx_scan (s : State) (v : List Byte) : (s.pushTx v).scan = s.scan := rfl

/-! ### `State.deliver` -/

@[simp] theorem State.deliver_cmdStatus (s : State) (v : List Byte) : (s.deliver v).cmdStatus = s.cmdStatus := rfl
@[simp] theorem State.deliver_enc (s : State) (v : List Byte) : (s.deliver v).enc = s.enc := rfl
@[simp] theorem State.deliver_dec (s : State) (v : List Byte) : (s.deliver v).dec = s.dec := rfl
@[simp] theorem State.deliver_cks (s : State) (v : List Byte) : (s.deliver v).cks = s.cks := rfl
@[simp] theorem State.deliver_tx (s : State) (v : List Byte) : (s.deliver v).tx = s.tx := rfl
@[simp] theorem State.deliver_rx (s : State) (v : List Byte) : (s.deliver v).rx = s.rx := rfl
@[simp] theorem State.deliver_params (s : State) (v : List Byte) : (s.deliver v).params = s.params := rfl
@[simp] theorem State.deliver_port (s : State) (v : List Byte) : (s.deliver v).port = s.port := rfl
@[simp] theorem State.deliver_txqFree (s : State) (v : List Byte) : (s.deliver v).txqFree = s.txqFree := rfl
@[simp] theorem State.deliver_txOut (s : State) (v : List Byte) : (s.deliver v).txOut = s.txOut := rfl
@[simp] theorem State.deliver_deliveries (s : State) (v : List Byte) : (s.deliver v).deliveries = s.deliveries ++ [v] := rfl
@[simp] theorem State.deliver_scan (s : State) (v : List Byte) : (s.deliver v).scan = s.scan := rfl

/-! ### `State.setPort` -/

@[simp] theorem State.setPort_cmdStatus (s : State) (v : List Input) : (s.setPort v).cmdStatus = s.cmdStatus := rfl
@[simp] theorem State.setPort_enc (s : State) (v : List Input) : (s.setPort v).enc = s.enc := rfl
@[simp] theorem State.setPort_dec (s : State) (v : List Input) : (s.setPort v).dec = s.dec := rfl
@[simp] theorem State.setPort_cks (s : State) (v : List Input) : (s.setPort v).cks = s.cks := rfl
@[simp] theorem State.setPort_tx (s : State) (v : List Input) : (s.setPort v).tx = s.tx := rfl
@[simp] theorem State.setPort_rx (s : State) (v : List Input) : (s.setPort v).rx = s.rx := rfl
@[simp] theorem State.setPort_params (s : State) (v : List Input) : (s.setPort v).params = s.params := rfl
@[simp] theorem State.setPort_port (s : State) (v : List Input) : (s.setPort v).port = v := rfl
@[simp] theorem State.setPort_txqFree (s : State) (v : List Input) : (s.setPort v).txqFree = s.txqFree := rfl
@[simp] theorem State.setPort_txOut (s : State) (v : List Input) : (s.setPort v).txOut = s.txOut := rfl
@[simp] theorem State.setPort_deliveries (s : State) (v : List Input) : (s.setPort v).deliveries = s.deliveries := rfl
@[simp] theorem State.setPort_scan (s : State) (v : List Input) : (s.setPort v).scan = s.scan := rfl

/-! ### `State.setTxqFree` -/

@[simp] theorem State.setTxqFree_cmdStatus (s : State) (v : Nat) : (s.setTxqFree v).cmdStatus = s.cmdStatus := rfl
@[simp] theorem State.setTxqFree_enc (s : State) (v : Nat) : (s.setTxqFree v).enc = s.enc := rfl
@[simp] theorem State.setTxqFree_dec (s : State) (v : Nat) : (s.setTxqFree v).dec = s.dec := rfl
@[simp] theorem State.setTxqFree_cks (s : State) (v : Nat) : (s.setTxqFree v).cks = s.cks := rfl
@[simp] theorem State.setTxqFree_tx (s : State) (v : Nat) : (s.setTxqFree v).tx = s.tx := rfl
@[simp] theorem State.setTxqFree_rx (s : State) (v : Nat) : (s.setTxqFree v).rx = s.rx := rfl
@[simp] theorem State.setTxqFree_params (s : State) (v : Nat) : (s.setTxqFree v).params = s.params := rfl
@[simp] theorem State.setTxqFree_port (s : State) (v : Nat) : (s.setTxqFree v).port = s.port := rfl
@[simp] theorem State.setTxqFree_txqFree (s : State) (v : Nat) : (s.setTxqFree v).txqFree = v := rfl
@[simp] theorem State.setTxqFree_txOut (s : State) (v : Nat) : (s.setTxqFree v).txOut = s.txOut := rfl
@[simp] theorem State.setTxqFree_deliveries (s : State) (v : Nat) : (s.setTxqFree v).deliveries = s.deliveries := rfl
@[simp] theorem State.setTxqFree_scan (s : State) (v : Nat) : (s.setTxqFree v).scan = s.scan := rfl

/-! ### `completeCommand` -/

@[simp] theorem completeCommand_cmdStatus (s : State) : (completeCommand s).cmdStatus = .ok := rfl
@[simp] theorem completeCommand_enc (s : State) : (completeCommand s).enc = s.enc := rfl
@[simp] theorem completeCommand_dec (s : State) : (completeCommand s).dec = s.dec := rfl
@[simp] theorem completeCommand_cks (s : State) : (completeCommand s).cks = s.cks := rfl
@[simp] theorem completeCommand_tx (s : State) : (completeCommand s).tx = s.tx := rfl
@[simp] theorem completeCommand_rx (s : State) : (completeCommand s).rx = s.rx := rfl
@[simp] theorem completeCommand_params (s : State) : (completeCommand s).params = s.params := rfl
@[simp] theorem completeCommand_port (s : State) : (completeCommand s).port = s.port := rfl
@[simp] theorem completeCommand_txqFree (s : State) : (completeCommand s).txqFree = s.txqFree := rfl
@[simp] theorem completeCommand_txOut (s : State) : (completeCommand s).txOut = s.txOut := rfl
@[simp] theorem completeCommand_deliveries (s : State) : (completeCommand s).deliveries = s.deliveries := rfl
@[simp] theorem completeCommand_scan (s : State) : (completeCommand s).scan = s.scan := rfl

/-! ### `illegalCommand` -/

@[simp] theorem illegalCommand_cmdStatus (s : State) : (illegalCommand s).cmdStatus = .illegal := rfl
@[simp] theorem illegalCommand_enc (s : State) : (illegalCommand s).enc = s.enc := rfl
@[simp] theorem illegalCommand_dec (s : State) : (illegalCommand s).dec = s.dec := rfl
@[simp] theorem illegalCommand_cks (s : State) : (illegalCommand s).cks = s.cks := rfl
@[simp] theorem illegalCommand_tx (s : State) : (illegalCommand s).tx = s.tx := rfl
@[simp] theorem illegalCommand_rx (s : State) : (illegalCommand s).rx = s.rx := rfl
@[simp] theorem illegalCommand_params (s : State) : (illegalCommand s).params = s.params := rfl
@[simp] theorem illegalCommand_port (s : State) : (illegalCommand s).port = s.port := rfl
@[simp] theorem illegalCommand_txqFree (s : State) : (illegalCommand s).txqFree = s.txqFree := rfl
@[simp] theorem illegalCommand_txOut (s : State) : (illegalCommand s).txOut = s.txOut := rfl
@[simp] theorem illegalCommand_deliveries (s : State) : (illegalCommand s).deliveries = s.deliveries := rfl
@[simp] theorem illegalCommand_scan (s : State) : (illegalCommand s).scan = s.scan := rfl

/-! ### `resetEvent` -/

@[simp] theorem resetEvent_cmdStatus (s : State) : (resetEvent s).cmdStatus = .ok := rfl
@[simp] theorem resetEvent_enc (s : State) : (resetEvent s).enc = EncUnit.reset := rfl
@[simp] theorem resetEvent_dec (s : State) : (resetEvent s).dec = DecUnit.reset := rfl
@[simp] theorem resetEvent_cks (s : State) : (resetEvent s).cks = s.params.cksAlg.initVal := rfl
@[simp] theorem resetEvent_tx (s : State) : (resetEvent s).tx = TxUnit.reset := rfl
@[simp] theorem resetEvent_rx (s : State) : (resetEvent s).rx = RxUnit.reset := rfl
@[simp] theorem resetEvent_params (s : State) : (resetEvent s).params = s.params := rfl
@[simp] theorem resetEvent_port (s : State) : (resetEvent s).port = s.port := rfl
@[simp] theorem resetEvent_txqFree (s : State) : (resetEvent s).txqFree = s.txqFree := rfl
@[simp] theorem resetEvent_txOut (s : State) : (resetEvent s).txOut = s.txOut := rfl
@[simp] theorem resetEvent_deliveries (s : State) : (resetEvent s).deliveries = s.deliveries := rfl
@[simp] theorem resetEvent_scan (s : State) : (resetEvent s).scan = Scan.exhausted := rfl

end Sys2Proof.Machine
end

