-- ==== Sys2Proof/Laws/Ops.lean ====
section
/-! SUPPORT. For each shared operation, once, everything it can do. -/

namespace Sys2Proof.Machine

/-! ### Taking the next input -/

theorem fetch_codeByte {s : State} {c : Byte} {rest : List Byte} (ha : scanActive s.scan = true)
    (hr : s.scan.rest = c :: rest) :
    fetch s = .run (decodeCodeByte c) (s.setScan { s.scan with rest := rest }) := by
  simp [fetch, ha, hr]

theorem fetch_idle {s : State} (ha : scanActive s.scan = false) (hp : s.port = []) :
    fetch s = .idle := by
  simp [fetch, ha, hp]

theorem fetch_reset {s : State} {inputs : List Input} (ha : scanActive s.scan = false)
    (hp : s.port = .reset :: inputs) : fetch s = .reset (s.setPort inputs) := by
  simp [fetch, ha, hp]

theorem fetch_command {s : State} {w : Word} {free : Nat} {inputs : List Input} {i : Instr}
    (ha : scanActive s.scan = false) (hp : s.port = .command w free :: inputs)
    (hd : decodeCommand w = .ok i) : fetch s = .run i ((s.setPort inputs).setTxqFree free) := by
  simp [fetch, ha, hp, hd]

theorem fetch_illegal {s : State} {w : Word} {free : Nat} {inputs : List Input} {r : Reject}
    (ha : scanActive s.scan = false) (hp : s.port = .command w free :: inputs)
    (hd : decodeCommand w = .error r) :
    fetch s = .illegal ((s.setPort inputs).setTxqFree free) := by
  simp [fetch, ha, hp, hd]

/-- A decode loop that can make a pass has a code byte to read. -/
theorem rest_of_scanActive {sc : Scan} (h : scanActive sc = true) :
    sc.format = false ∧ ∃ c rest, sc.rest = c :: rest := by
  cases hr : sc.rest with
  | nil => simp [scanActive, hr] at h
  | cons c rest => simpa [scanActive, hr] using h

/-- The five things a step can meet. -/
theorem fetch_cases (s : State) :
    (∃ c rest, scanActive s.scan = true ∧ s.scan.rest = c :: rest ∧
      fetch s = .run (decodeCodeByte c) (s.setScan { s.scan with rest := rest })) ∨
    (scanActive s.scan = false ∧ s.port = [] ∧ fetch s = .idle) ∨
    (∃ inputs, scanActive s.scan = false ∧ s.port = .reset :: inputs ∧
      fetch s = .reset (s.setPort inputs)) ∨
    (∃ w free inputs i, scanActive s.scan = false ∧ s.port = .command w free :: inputs ∧
      decodeCommand w = .ok i ∧ fetch s = .run i ((s.setPort inputs).setTxqFree free)) ∨
    (∃ w free inputs r, scanActive s.scan = false ∧ s.port = .command w free :: inputs ∧
      decodeCommand w = .error r ∧ fetch s = .illegal ((s.setPort inputs).setTxqFree free)) := by
  cases ha : scanActive s.scan with
  | true =>
    obtain ⟨-, c, rest, hr⟩ := rest_of_scanActive ha
    exact .inl ⟨c, rest, rfl, hr, fetch_codeByte ha hr⟩
  | false =>
    cases hp : s.port with
    | nil => exact .inr (.inl ⟨rfl, rfl, fetch_idle ha hp⟩)
    | cons x inputs =>
      cases x with
      | reset => exact .inr (.inr (.inl ⟨inputs, rfl, rfl, fetch_reset ha hp⟩))
      | command w free =>
        cases hd : decodeCommand w with
        | ok i =>
          exact .inr (.inr (.inr (.inl ⟨w, free, inputs, i, rfl, rfl, hd, fetch_command ha hp hd⟩)))
        | error r =>
          exact .inr (.inr (.inr (.inr
            ⟨w, free, inputs, r, rfl, rfl, hd, fetch_illegal ha hp hd⟩)))

/-! ### The decode loop -/

/-- A block is FORMAT when it is truncated or has a zero literal, else it joins the expansion. -/
theorem scanBlock_cases (literals trailing : Nat) (sc : Scan) :
    (sc.rest.length < literals ∧ scanBlock literals trailing sc = scanFormat sc) ∨
    (literals ≤ sc.rest.length ∧ (0 : Byte) ∈ sc.rest.take literals ∧
      scanBlock literals trailing sc = scanFormat sc) ∨
    (literals ≤ sc.rest.length ∧ (0 : Byte) ∉ sc.rest.take literals ∧
      scanBlock literals trailing sc =
        { rest := sc.rest.drop literals
          out := sc.out ++ sc.rest.take literals ++ zeros trailing
          lastZ := trailing
          format := false }) := by
  unfold scanBlock
  split
  · next h => exact .inl ⟨h, rfl⟩
  · next h =>
    split
    · next h0 => exact .inr (.inl ⟨by omega, h0, rfl⟩)
    · next h0 => exact .inr (.inr ⟨by omega, h0, rfl⟩)

/-- A block with no literals always joins the expansion. -/
@[simp] theorem scanBlock_zero (trailing : Nat) (sc : Scan) :
    scanBlock 0 trailing sc =
      { rest := sc.rest, out := sc.out ++ zeros trailing, lastZ := trailing, format := false } := by
  simp [scanBlock]

/-- A pass on a list that is not empty reads its first byte as a code byte. -/
theorem scanPass_cons {sc : Scan} {c : Byte} {rest : List Byte} (h : sc.rest = c :: rest) :
    scanPass sc =
      match codeClass c with
      | none => scanFormat { sc with rest := rest }
      | some (literals, trailing) => scanBlock literals trailing { sc with rest := rest } := by
  show (match sc.rest with
    | [] => sc
    | c :: rest =>
      match codeClass c with
      | none => scanFormat { sc with rest := rest }
      | some (literals, trailing) => scanBlock literals trailing { sc with rest := rest }) = _
  rw [h]

/-- A decode loop that can make no pass stays as it is. -/
theorem scanRun_of_not_active {sc : Scan} (h : scanActive sc = false) (fuel : Nat) :
    scanRun fuel sc = sc := by
  cases fuel <;> simp [scanRun, h]

/-! ### The encoder's and the decoder's commands -/

/-- The four outcomes of an offered byte. -/
theorem encFeedUnit_cases (p : Params) (b : Byte) (u : EncUnit) :
    (u.phase = .idle ∧ encFeedUnit p b u = { u with status := .seqErr }) ∨
    (u.phase = .opened ∧ u.status = .noMem ∧ encFeedUnit p b u = u) ∨
    (u.phase = .opened ∧ u.status ≠ .noMem ∧ p.encCap < worstCase (u.nin.toNat + 1) ∧
      encFeedUnit p b u = { u with status := .noMem }) ∨
    (u.phase = .opened ∧ u.status ≠ .noMem ∧ worstCase (u.nin.toNat + 1) ≤ p.encCap ∧
      encFeedUnit p b u = { u with inp := u.inp ++ [b], nin := u.nin + 1 }) := by
  unfold encFeedUnit
  cases hp : u.phase with
  | idle => simp
  | opened =>
    simp only [reduceCtorEq, if_false, false_and, false_or, true_and]
    split
    · next h => exact .inl ⟨h, rfl⟩
    · next h =>
      split
      · next hc => exact .inr (.inl ⟨h, hc, rfl⟩)
      · next hc => exact .inr (.inr ⟨h, by omega, rfl⟩)

/-- The three outcomes of finishing an encoding. -/
theorem encFinishUnit_cases (p : Params) (u : EncUnit) :
    (u.phase = .idle ∧ encFinishUnit p u = { u with status := .seqErr }) ∨
    (u.phase = .opened ∧ u.status = .noMem ∧
      encFinishUnit p u = { u with phase := .idle, len := 0, out := [], outValid := false }) ∨
    (u.phase = .opened ∧ u.status ≠ .noMem ∧
      encFinishUnit p u =
        { u with phase := .idle, out := bufWriteAll p.encCap [] 0 (stuffEncode u.inp)
                 len := BitVec.ofNat 16 (stuffEncode u.inp).length
                 status := .ok, outValid := true }) := by
  unfold encFinishUnit
  cases hp : u.phase with
  | idle => simp
  | opened =>
    simp only [reduceCtorEq, if_false, false_and, false_or, true_and]
    split
    · next h => exact .inl ⟨h, rfl⟩
    · next h => exact .inr ⟨h, rfl⟩

/-- The four outcomes of finishing a decoding. -/
theorem decFinishUnit_cases (p : Params) (u : DecUnit) :
    (u.phase = .idle ∧ decFinishUnit p u = { u with status := .seqErr }) ∨
    (u.phase = .opened ∧ stuffDecode u.inp = .format ∧
      decFinishUnit p u =
        { u with phase := .idle, status := .format, len := 0, out := [], outValid := false }) ∨
    (∃ d, u.phase = .opened ∧ stuffDecode u.inp = .ok d ∧ p.decCap < d.length ∧
      decFinishUnit p u =
        { u with phase := .idle, status := .noMem, len := saturate32 d.length, out := []
                 outValid := false }) ∨
    (∃ d, u.phase = .opened ∧ stuffDecode u.inp = .ok d ∧ d.length ≤ p.decCap ∧
      decFinishUnit p u =
        { u with phase := .idle, out := bufWriteAll p.decCap [] 0 d, status := .ok
                 len := saturate32 d.length, outValid := true }) := by
  unfold decFinishUnit
  cases hp : u.phase with
  | idle => simp
  | opened =>
    cases hd : stuffDecode u.inp with
    | format => simp
    | ok d =>
      by_cases hc : p.decCap < d.length
      · exact .inr (.inr (.inl ⟨d, rfl, rfl, hc, by simp [hc]⟩))
      · exact .inr (.inr (.inr ⟨d, rfl, rfl, by omega, by simp [hc]⟩))

theorem toNat_saturate32 {n : Nat} (h : n < 4294967296) : (saturate32 n).toNat = n := by
  simp only [saturate32, BitVec.toNat_ofNat]
  omega

/-! ### The framers -/

/-- The three outcomes of a pushed payload byte. -/
theorem txPushUnit_cases (p : Params) (b : Byte) (u : TxUnit) :
    (u.len.toNat < p.maxMsg ∧
      txPushUnit p b u =
        { u with pay := bufWrite p.maxMsg u.pay u.len.toNat b, len := u.len + 1 }) ∨
    (u.len.toNat = p.maxMsg ∧
      txPushUnit p b u = { u with len := BitVec.ofNat 16 (p.maxMsg + 1) }) ∨
    (p.maxMsg < u.len.toNat ∧ txPushUnit p b u = u) := by
  unfold txPushUnit
  split
  · next h => exact .inl ⟨h, rfl⟩
  · split
    · next h => exact .inr (.inl ⟨h, rfl⟩)
    · exact .inr (.inr ⟨by omega, rfl⟩)

/-- The three outcomes of a send. -/
theorem sendStaged_cases (s : State) :
    let frame := buildFrame s.params.cksAlg (stagedPayload s.tx) s.tx.seq
    let built := { s.tx with seq := s.tx.seq + 1, flen := BitVec.ofNat 16 frame.length }
    (s.params.maxMsg < s.tx.len.toNat ∧
      sendStaged s =
        s.setTx { s.tx with oversize := countUp s.tx.oversize, status := .oversize }) ∨
    (s.tx.len.toNat ≤ s.params.maxMsg ∧ s.txqFree < frame.length ∧
      sendStaged s = s.setTx { built with nobuf := countUp s.tx.nobuf, status := .noBuf }) ∨
    (s.tx.len.toNat ≤ s.params.maxMsg ∧ frame.length ≤ s.txqFree ∧
      sendStaged s =
        (s.setTx { built with good := countUp s.tx.good, status := .ok }).pushTx frame) := by
  simp only [sendStaged]
  split
  · next h => exact .inl ⟨h, rfl⟩
  · next h =>
    split
    · next hf => exact .inr (.inl ⟨by omega, hf, rfl⟩)
    · next hf => exact .inr (.inr ⟨by omega, by omega, rfl⟩)

/-- An accumulated byte either fills the buffer, which discards it, or joins it. -/
theorem accumulate_cases (p : Params) (b : Byte) (u : RxUnit) :
    ((u.cnt + 1).toNat = p.rxbufSize ∧
      accumulate p b u = { u with cnt := 0, buf := [], oversize := countUp u.oversize }) ∨
    ((u.cnt + 1).toNat ≠ p.rxbufSize ∧
      accumulate p b u =
        { u with buf := bufWrite p.rxbufSize u.buf u.cnt.toNat b, cnt := u.cnt + 1 }) := by
  unfold accumulate
  split
  · next h => exact .inl ⟨h, rfl⟩
  · next h => exact .inr ⟨h, rfl⟩

/-- The three counters a completed frame can raise, and when its body is delivered. -/
theorem frameOutcome_cases (p : Params) (r : Decoded) (u : RxUnit) :
    ((r = .format ∨ ∃ d, r = .ok d ∧ p.decCap < d.length) ∧
      frameOutcome p r u = ({ u with decFail := countUp u.decFail }, none)) ∨
    (∃ d, r = .ok d ∧ d.length ≤ p.decCap ∧ verifies p.cksAlg d = false ∧
      frameOutcome p r u = ({ u with cksFail := countUp u.cksFail }, none)) ∨
    (∃ d, r = .ok d ∧ d.length ≤ p.decCap ∧ verifies p.cksAlg d = true ∧
      frameOutcome p r u =
        ({ u with good := countUp u.good }, some (d.take (d.length - Config.ovh)))) := by
  cases r with
  | format => exact .inl ⟨.inl rfl, rfl⟩
  | ok d =>
    by_cases hc : p.decCap < d.length
    · exact .inl ⟨.inr ⟨d, rfl, hc⟩, by simp [frameOutcome, hc]⟩
    · by_cases hs : d.length < Config.ovh
      · have hv : verifies p.cksAlg d = false := by
          simp [verifies, Nat.not_le.mpr hs]
        exact .inr (.inl ⟨d, rfl, by omega, hv, by simp [frameOutcome, hc, hs]⟩)
      · cases hv : verifies p.cksAlg d with
        | true => exact .inr (.inr ⟨d, rfl, by omega, hv, by simp [frameOutcome, hc, hs, hv]⟩)
        | false => exact .inr (.inl ⟨d, rfl, by omega, hv, by simp [frameOutcome, hc, hs, hv]⟩)

/-! ### Runs -/

@[simp] theorem execAll_nil (s : State) : execAll [] s = .next s := rfl

theorem execAll_cons {i : Instr} {is : List Instr} {s t : State} (h : exec i s = .next t) :
    execAll (i :: is) s = execAll is t := by
  simp [execAll, h]

theorem execAll_append {is js : List Instr} {s t : State} (h : execAll is s = .next t) :
    execAll (is ++ js) s = execAll js t := by
  induction is generalizing s with
  | nil =>
    simp only [execAll_nil, Host.Outcome.next.injEq] at h
    simp [h]
  | cons i is ih =>
    simp only [List.cons_append, execAll] at h ⊢
    cases he : exec i s with
    | next u => rw [he] at h; exact ih h
    | fault r => rw [he] at h; simp at h
    | refused r => rw [he] at h; simp at h

end Sys2Proof.Machine
end

