-- ==== Sys2Proof/Laws/PerInstr.lean ====
section
/-! SUPPORT. Statements about every instruction as syntax, one lemma per constructor. -/

namespace Sys2Proof.Laws

/-- The encoding of an instruction stands in its row of the opcode table: a command word has the
row's opcode in its upper byte (30_encoding.md R80, R82), a code byte lies in the row's range
(R90). -/
def EncodingInRow.Statement (i : Instr) : Prop :=
  i.wellFormed = true →
    match encode i with
    | .command w => (opField w, mnemonicOf i) ∈ Machine.opcodeMap
    | .codeByte c =>
      (mnemonicOf i = "CODE_ILLEGAL" ∧ c.toNat = 0x00) ∨
      (mnemonicOf i = "CODE_DATA_Z1" ∧ 0x01 ≤ c.toNat ∧ c.toNat ≤ 0xD0) ∨
      (mnemonicOf i = "CODE_DATA_MAX" ∧ c.toNat = 0xD1) ∨
      (mnemonicOf i = "CODE_RESERVED" ∧ c.toNat = 0xD2) ∨
      (mnemonicOf i = "CODE_ZRUN" ∧ 0xD3 ≤ c.toNat ∧ c.toNat ≤ 0xDF) ∨
      (mnemonicOf i = "CODE_DATA_Z2" ∧ 0xE0 ≤ c.toNat ∧ c.toNat ≤ 0xFF)

/-- The upper byte of a command word is its opcode. -/
theorem opField_commandWord (op imm : Byte) : opField (commandWord op imm) = op :=
  BitVec.extractLsb'_append_eq_left

/-- The lower byte of a command word is its immediate. -/
theorem immField_commandWord (op imm : Byte) : immField (commandWord op imm) = imm :=
  BitVec.extractLsb'_append_eq_right

theorem EncodingInRow.nop : EncodingInRow.Statement .nop := by
  intro _; simp [encode, opField_commandWord, mnemonicOf, Machine.opcodeMap]

theorem EncodingInRow.encStart : EncodingInRow.Statement .encStart := by
  intro _; simp [encode, opField_commandWord, mnemonicOf, Machine.opcodeMap]

theorem EncodingInRow.encFeed (imm : Byte) : EncodingInRow.Statement (.encFeed imm) := by
  intro _; simp [encode, opField_commandWord, mnemonicOf, Machine.opcodeMap]

theorem EncodingInRow.encFinish : EncodingInRow.Statement .encFinish := by
  intro _; simp [encode, opField_commandWord, mnemonicOf, Machine.opcodeMap]

theorem EncodingInRow.decStart : EncodingInRow.Statement .decStart := by
  intro _; simp [encode, opField_commandWord, mnemonicOf, Machine.opcodeMap]

theorem EncodingInRow.decFeed (imm : Byte) : EncodingInRow.Statement (.decFeed imm) := by
  intro _; simp [encode, opField_commandWord, mnemonicOf, Machine.opcodeMap]

theorem EncodingInRow.decFinish : EncodingInRow.Statement .decFinish := by
  intro _; simp [encode, opField_commandWord, mnemonicOf, Machine.opcodeMap]

theorem EncodingInRow.cksInit : EncodingInRow.Statement .cksInit := by
  intro _; simp [encode, opField_commandWord, mnemonicOf, Machine.opcodeMap]

theorem EncodingInRow.cksFeed (imm : Byte) : EncodingInRow.Statement (.cksFeed imm) := by
  intro _; simp [encode, opField_commandWord, mnemonicOf, Machine.opcodeMap]

theorem EncodingInRow.txBegin : EncodingInRow.Statement .txBegin := by
  intro _; simp [encode, opField_commandWord, mnemonicOf, Machine.opcodeMap]

theorem EncodingInRow.txPush (imm : Byte) : EncodingInRow.Statement (.txPush imm) := by
  intro _; simp [encode, opField_commandWord, mnemonicOf, Machine.opcodeMap]

theorem EncodingInRow.txSend : EncodingInRow.Statement .txSend := by
  intro _; simp [encode, opField_commandWord, mnemonicOf, Machine.opcodeMap]

theorem EncodingInRow.rxByte (imm : Byte) : EncodingInRow.Statement (.rxByte imm) := by
  intro _; simp [encode, opField_commandWord, mnemonicOf, Machine.opcodeMap]

theorem EncodingInRow.codeIllegal : EncodingInRow.Statement .codeIllegal := by
  intro _; simp [encode, mnemonicOf]

theorem EncodingInRow.codeDataZ1 (literals : Nat) :
    EncodingInRow.Statement (.codeDataZ1 literals) := by
  intro h
  simp only [Instr.wellFormed, decide_eq_true_eq] at h
  simp only [encode, mnemonicOf, BitVec.toNat_ofNat]
  refine .inr (.inl ⟨trivial, ?_, ?_⟩) <;> omega

theorem EncodingInRow.codeDataMax : EncodingInRow.Statement .codeDataMax := by
  intro _; simp [encode, mnemonicOf]

theorem EncodingInRow.codeReserved : EncodingInRow.Statement .codeReserved := by
  intro _; simp [encode, mnemonicOf]

theorem EncodingInRow.codeZrun (zeros : Nat) : EncodingInRow.Statement (.codeZrun zeros) := by
  intro h
  simp only [Instr.wellFormed, decide_eq_true_eq] at h
  simp only [encode, mnemonicOf, BitVec.toNat_ofNat]
  refine .inr (.inr (.inr (.inr (.inl ⟨trivial, ?_, ?_⟩)))) <;> omega

theorem EncodingInRow.codeDataZ2 (literals : Nat) :
    EncodingInRow.Statement (.codeDataZ2 literals) := by
  intro h
  simp only [Instr.wellFormed, decide_eq_true_eq] at h
  simp only [encode, mnemonicOf, BitVec.toNat_ofNat]
  refine .inr (.inr (.inr (.inr (.inr ⟨trivial, ?_, ?_⟩)))) <;> omega

end Sys2Proof.Laws
end

