-- ==== Sys2Proof/Laws/RefCrc.lean ====
section
/-! SUPPORT. REF_CRC (42_checksum.md R176) has the properties (P3) and (P4) of R171, so the claims
that name them as hypotheses have an instance. The shift register is linear and injective, and a
change inside 16 consecutive bits reaches it as three bytes whose remainder is not zero. -/

namespace Sys2Proof.Machine

theorem crcShift_xor (a b : Word) : crcShift (a ^^^ b) = crcShift a ^^^ crcShift b := by
  simp only [crcShift, BitVec.msb_xor]
  cases a.msb <;> cases b.msb <;> simp only [Bool.false_bne, Bool.true_bne,
    Bool.not_false, bne_self_eq_false, if_true, if_false, Bool.false_eq_true,
    BitVec.shiftLeft_xor_distrib] <;> ext i <;> simp <;> grind

theorem crcShift_of_small {a : Word} (h : a.toNat * 2 < 65536) :
    (crcShift a).toNat = a.toNat * 2 := by
  have hm : a.msb = false := by
    rw [BitVec.msb_eq_false_iff_two_mul_lt]
    omega
  simp only [crcShift, hm, Bool.false_eq_true, if_false, BitVec.toNat_shiftLeft]
  omega

theorem eq_zero_of_crcShift {a : Word} (h : crcShift a = 0) : a = 0 := by
  by_cases hm : a.msb = true
  · have h0 : (crcShift a).getLsbD 0 = true := by
      simp only [crcShift, hm, if_true]
      simp
    simp [h] at h0
  · have hs : a.toNat * 2 < 65536 := by
      have := (BitVec.msb_eq_false_iff_two_mul_lt (x := a)).mp (by simpa using hm)
      omega
    have ht := crcShift_of_small hs
    rw [h] at ht
    apply BitVec.eq_of_toNat_eq
    simp at ht ⊢
    omega

theorem crcShift_injective : Function.Injective crcShift := by
  intro a b h
  have : a ^^^ b = 0 := eq_zero_of_crcShift (by rw [crcShift_xor, h]; exact BitVec.xor_self)
  exact BitVec.xor_eq_zero_iff.mp this

/-- Shifts that lose no bit only double. -/
theorem toNat_iterate_crcShift (n : Nat) {a : Word} (h : a.toNat * 2 ^ n < 65536) :
    (crcShift^[n] a).toNat = a.toNat * 2 ^ n := by
  induction n with
  | zero => simp
  | succ n ih =>
    have hle : a.toNat * 2 ^ n ≤ a.toNat * 2 ^ (n + 1) :=
      Nat.mul_le_mul_left _ (Nat.pow_le_pow_right (by omega) (by omega))
    have hn := ih (by omega)
    have hd : a.toNat * 2 ^ (n + 1) = a.toNat * 2 ^ n * 2 := by rw [pow_succ, Nat.mul_assoc]
    rw [Function.iterate_succ_apply', crcShift_of_small (by rw [hn]; omega), hn, hd]

theorem iterate_crcShift_xor (n : Nat) (a b : Word) :
    crcShift^[n] (a ^^^ b) = crcShift^[n] a ^^^ crcShift^[n] b := by
  induction n generalizing a b with
  | zero => rfl
  | succ n ih => simp [Function.iterate_succ_apply, crcShift_xor, ih]

theorem iterate_crcShift_zero (n : Nat) : crcShift^[n] 0 = 0 := by
  induction n with
  | zero => rfl
  | succ n ih => rw [Function.iterate_succ_apply, show crcShift 0 = 0 from rfl, ih]

/-- A byte alone passes through its eight shifts unreduced. -/
theorem iterate_crcShift_byte (b : Byte) :
    crcShift^[8] (b.setWidth 16) = b.setWidth 16 <<< 8 := by
  apply BitVec.eq_of_toNat_eq
  have hb := b.isLt
  rw [toNat_iterate_crcShift]
  · simp only [BitVec.toNat_setWidth, BitVec.toNat_shiftLeft]
    omega
  · simp only [BitVec.toNat_setWidth]
    omega

theorem refCrcStep_eq (c : Word) (b : Byte) :
    refCrcStep c b = crcShift^[8] (c ^^^ crcShift^[8] (b.setWidth 16)) := by
  rw [iterate_crcShift_byte]
  rfl

theorem refCrcStep_xor (c c' : Word) (b b' : Byte) :
    refCrcStep c b ^^^ refCrcStep c' b' = refCrcStep (c ^^^ c') (b ^^^ b') := by
  simp only [refCrcStep_eq, ← iterate_crcShift_xor, BitVec.setWidth_xor]
  congr 1
  simp only [iterate_crcShift_xor]
  ac_rfl

theorem foldl_refCrcStep_xor (x x' : List Byte) (c c' : Word) (h : x'.length = x.length) :
    x.foldl refCrcStep c ^^^ x'.foldl refCrcStep c' =
      (List.zipWith (· ^^^ ·) x x').foldl refCrcStep (c ^^^ c') := by
  induction x generalizing x' c c' with
  | nil =>
    have : x' = [] := List.length_eq_zero_iff.mp h
    simp [this]
  | cons b x ih =>
    cases x' with
    | nil => simp at h
    | cons b' x' =>
      simp only [List.length_cons, Nat.add_right_cancel_iff] at h
      simp only [List.foldl_cons, List.zipWith_cons_cons, ← refCrcStep_xor]
      exact ih x' _ _ h

theorem refCrcStep_zero (c : Word) : refCrcStep c 0 = crcShift^[8] c := by
  rw [refCrcStep_eq, show (0 : Byte).setWidth 16 = (0 : Word) from rfl, iterate_crcShift_zero]
  exact congrArg _ BitVec.xor_zero

theorem foldl_refCrcStep_zeros (n : Nat) (c : Word) :
    (zeros n).foldl refCrcStep c = crcShift^[8 * n] c := by
  induction n generalizing c with
  | zero => rfl
  | succ n ih =>
    rw [show zeros (n + 1) = 0 :: zeros n from rfl, List.foldl_cons, refCrcStep_zero, ih,
      ← Function.iterate_add_apply]
    rfl

/-- Three bytes that hold a change of at most 16 consecutive bits, the first with `p` leading zero
bits and the last with its nonzero bits among its first `p`, leave the register at zero only if
they are zero. -/
theorem burst_remainder {p : Nat} (hp : p < 8) {e0 e1 e2 : Byte} (h0 : e0.toNat < 2 ^ (8 - p))
    (h2 : e2.toNat % 2 ^ (8 - p) = 0) (h : [e0, e1, e2].foldl refCrcStep 0 = 0) :
    e0 = 0 ∧ e1 = 0 ∧ e2 = 0 := by
  have inj : ∀ n, Function.Injective crcShift^[n] := fun n => crcShift_injective.iterate n
  set w : Word := (e0.setWidth 16 <<< 8) ^^^ e1.setWidth 16 with hw
  have key : crcShift^[8] w = e2.setWidth 16 := by
    simp only [List.foldl_cons, List.foldl_nil, refCrcStep_eq] at h
    rw [show ∀ a : Word, 0 ^^^ a = a from fun a => BitVec.zero_xor, iterate_crcShift_byte e0, ← iterate_crcShift_xor, ← iterate_crcShift_xor,
      ← hw] at h
    have hz := inj 8 ((h.trans (iterate_crcShift_zero 8).symm))
    have hz' := inj 8 (hz.trans (iterate_crcShift_zero 8).symm)
    exact BitVec.xor_eq_zero_iff.mp hz'
  have hwn : w.toNat = e0.toNat * 256 + e1.toNat := by
    have hor : w = e0 ++ e1 := by
      rw [hw]
      ext i hi
      rw [show (e0 ++ e1)[i] = if h : i < 8 then e1[i] else e0[i - 8] from
        BitVec.getElem_append (x := e0) (y := e1) hi]
      simp only [BitVec.getElem_xor, BitVec.getElem_shiftLeft, BitVec.getElem_setWidth]
      by_cases h8 : i < 8
      · simp [h8]
      · have h16 : i - 8 < 8 := by omega
        simp [h8, BitVec.getLsbD_of_ge e1 i (by omega), BitVec.getLsbD_eq_getElem h16]
    rw [hor, BitVec.toNat_append, ← Nat.shiftLeft_add_eq_or_of_lt e1.isLt, Nat.shiftLeft_eq]
  set q := e2.toNat / 2 ^ (8 - p) with hq
  have h2' : e2.toNat = q * 2 ^ (8 - p) := by
    rw [hq]
    exact (Nat.div_mul_cancel (Nat.dvd_of_mod_eq_zero h2)).symm
  have hpow : 2 ^ (8 - p) * 2 ^ p = 256 := by
    rw [← pow_add, show 8 - p + p = 8 by omega]
    rfl
  have hqlt : q < 2 ^ p := by
    have : q * 2 ^ (8 - p) < 2 ^ p * 2 ^ (8 - p) := by
      rw [← h2', Nat.mul_comm (2 ^ p), hpow]
      exact e2.isLt
    exact Nat.lt_of_mul_lt_mul_right this
  have hq16 : q < 65536 := by
    have : q ≤ e2.toNat := Nat.div_le_self _ _
    have := e2.isLt
    omega
  have hsplit : crcShift^[8] w = crcShift^[8 - p] (crcShift^[p] w) := by
    rw [← Function.iterate_add_apply, show 8 - p + p = 8 by omega]
  have hqv : crcShift^[8 - p] (BitVec.ofNat 16 q) = e2.setWidth 16 := by
    apply BitVec.eq_of_toNat_eq
    have he := e2.isLt
    have hqn : (BitVec.ofNat 16 q).toNat = q := by
      simp only [BitVec.toNat_ofNat]
      exact Nat.mod_eq_of_lt hq16
    rw [toNat_iterate_crcShift _ (by rw [hqn, ← h2']; omega), hqn, ← h2']
    simp only [BitVec.toNat_setWidth]
    omega
  have hpv : crcShift^[p] w = BitVec.ofNat 16 q := inj (8 - p) (by rw [← hsplit, key, hqv])
  have hwlt : w.toNat * 2 ^ p < 65536 := by
    have h1 : e0.toNat + 1 ≤ 2 ^ (8 - p) := h0
    have h3 : (e0.toNat + 1) * 2 ^ p ≤ 256 := by
      rw [← hpow]
      exact Nat.mul_le_mul_right _ h1
    have h4 := e1.isLt
    have h5 : w.toNat + 1 ≤ (e0.toNat + 1) * 256 := by omega
    have h6 : (w.toNat + 1) * 2 ^ p ≤ (e0.toNat + 1) * 256 * 2 ^ p := Nat.mul_le_mul_right _ h5
    have h7 : 0 < 2 ^ p := by positivity
    nlinarith
  have hfin := congrArg BitVec.toNat hpv
  rw [toNat_iterate_crcShift _ hwlt] at hfin
  simp only [BitVec.toNat_ofNat] at hfin
  rw [Nat.mod_eq_of_lt (by simpa using hq16)] at hfin
  have hw0 : w.toNat = 0 := by
    by_contra hne
    have : 1 * 2 ^ p ≤ w.toNat * 2 ^ p := Nat.mul_le_mul_right _ (by omega)
    omega
  have hq0 : q = 0 := by simpa [hw0] using hfin.symm
  refine ⟨?_, ?_, ?_⟩ <;> apply BitVec.eq_of_toNat_eq <;> simp
  · omega
  · omega
  · simp [h2', hq0]

/-- The byte of a list, zero past its end. -/
theorem getD_zipWith_xor (x x' : List Byte) (h : x'.length = x.length) (i : Nat) :
    (List.zipWith (· ^^^ ·) x x').getD i 0 = x.getD i 0 ^^^ x'.getD i 0 := by
  simp only [List.getD_eq_getElem?_getD, List.getElem?_zipWith]
  by_cases hi : i < x.length
  · simp [hi, h]
  · simp [List.getElem?_eq_none (Nat.le_of_not_lt hi),
      List.getElem?_eq_none (show x'.length ≤ i by omega)]

theorem eq_zero_of_bits {e : Byte} (h : ∀ k < 8, e.getMsbD k = false) : e = 0 := by
  apply BitVec.eq_of_getMsbD_eq
  intro i hi
  rw [h i hi]
  simp

theorem toNat_lt_of_leading_zeros {e : Byte} {p : Nat} (hp : p ≤ 8)
    (h : ∀ k < p, e.getMsbD k = false) : e.toNat < 2 ^ (8 - p) := by
  apply Nat.lt_pow_two_of_testBit
  intro i hi
  rw [BitVec.testBit_toNat]
  by_cases h8 : i < 8
  · have := h (8 - 1 - i) (by omega)
    rw [BitVec.getMsbD_eq_getLsbD] at this
    simpa [show 8 - 1 - (8 - 1 - i) = i by omega, show 8 - 1 - i < 8 by omega] using this
  · exact BitVec.getLsbD_of_ge e i (by omega)

theorem toNat_mod_of_trailing_zeros {e : Byte} {p : Nat} (hp : p ≤ 8)
    (h : ∀ k, p ≤ k → k < 8 → e.getMsbD k = false) : e.toNat % 2 ^ (8 - p) = 0 := by
  apply Nat.eq_of_testBit_eq
  intro i
  rw [Nat.testBit_mod_two_pow, Nat.zero_testBit, BitVec.testBit_toNat]
  by_cases hi : i < 8 - p
  · have := h (8 - 1 - i) (by omega) (by omega)
    rw [BitVec.getMsbD_eq_getLsbD] at this
    simpa [hi, show 8 - 1 - (8 - 1 - i) = i by omega, show 8 - 1 - i < 8 by omega] using this
  · simp [hi]

/-- A list that is zero outside three bytes is, up to zeros at its end, zeros, those bytes, zeros. -/
theorem pad_three (d : List Byte) (j : Nat) (hlo : ∀ i < j, d.getD i 0 = 0)
    (hhi : ∀ i, j + 2 < i → d.getD i 0 = 0) :
    d ++ zeros (j + 3) =
      zeros j ++ ([d.getD j 0, d.getD (j + 1) 0, d.getD (j + 2) 0] ++ zeros d.length) := by
  have hget : ∀ (l l' : List Byte), l.length = l'.length → (∀ i, l.getD i 0 = l'.getD i 0) →
      l = l' := by
    intro l l' hl h
    apply List.ext_getElem hl
    intro i h1 h2
    have := h i
    simpa [List.getD_eq_getElem?_getD, h1, h2] using this
  have hz : ∀ n i, (zeros n).getD i 0 = 0 := by
    intro n i
    simp only [zeros, List.getD_eq_getElem?_getD, List.getElem?_replicate]
    split <;> rfl
  apply hget
  · simp [zeros]
    omega
  intro i
  have hl : (d ++ zeros (j + 3)).getD i 0 = d.getD i 0 := by
    by_cases hi : i < d.length
    · simp [List.getD_eq_getElem?_getD, List.getElem?_append_left hi]
    · have := hz (j + 3) (i - d.length)
      simp only [List.getD_eq_getElem?_getD] at this ⊢
      rw [List.getElem?_append_right (by omega), this, List.getElem?_eq_none (by omega)]
      rfl
  rw [hl]
  have hr : ∀ (a : List Byte) (b : List Byte) (k : Nat), (a ++ b).getD (a.length + k) 0 = b.getD k 0 := by
    intro a b k
    simp [List.getD_eq_getElem?_getD, List.getElem?_append_right]
  by_cases hij : i < j
  · rw [hlo i hij]
    have : i < (zeros j).length := by simpa [zeros] using hij
    simp only [List.getD_eq_getElem?_getD]
    rw [List.getElem?_append_left this]
    have := hz j i
    simpa [List.getD_eq_getElem?_getD] using this.symm
  · obtain ⟨k, rfl⟩ := Nat.exists_eq_add_of_le (Nat.le_of_not_lt hij)
    have := hr (zeros j) ([d.getD j 0, d.getD (j + 1) 0, d.getD (j + 2) 0] ++ zeros d.length) k
    rw [show (zeros j).length = j by simp [zeros]] at this
    rw [this]
    match k with
    | 0 => simp
    | 1 => simp
    | 2 => simp
    | k + 3 =>
      rw [hhi _ (by omega)]
      have := hr [d.getD j 0, d.getD (j + 1) 0, d.getD (j + 2) 0] (zeros d.length) k
      rw [show [d.getD j 0, d.getD (j + 1) 0, d.getD (j + 2) 0].length = 3 from rfl,
        Nat.add_comm 3 k] at this
      rw [this, hz]

/-- REF_CRC has (P4), for payloads of any length. -/
theorem refCrc_burstSensitive (maxMsg : Nat) : BurstSensitive maxMsg .refCrc := by
  rintro x x' - hlen hne ⟨start, hspan⟩ heq
  apply hne
  set d := List.zipWith (· ^^^ ·) x x' with hd
  have hdl : d.length = x.length := by simp [hd, hlen]
  have hfold : d.foldl refCrcStep 0 = 0 := by
    have := foldl_refCrcStep_xor x x' (CksAlg.initVal .refCrc) (CksAlg.initVal .refCrc) hlen
    rw [BitVec.xor_self] at this
    rw [hd, show (0 : Word) = 0#16 from rfl, ← this, BitVec.xor_eq_zero_iff]
    exact heq.symm
  have hdget : ∀ i, d.getD i 0 = x.getD i 0 ^^^ x'.getD i 0 := getD_zipWith_xor x x' hlen
  have hbit : ∀ i k, k < 8 → (d.getD i 0).getMsbD k = true →
      start ≤ 8 * i + k ∧ 8 * i + k < start + 16 := by
    intro i k hk hb
    apply hspan
    rw [hdget, BitVec.getMsbD_xor] at hb
    simp only [bitAt, show (8 * i + k) / 8 = i by omega, show (8 * i + k) % 8 = k by omega]
    intro h
    rw [h, Bool.xor_self] at hb
    exact absurd hb (by decide)
  have hzero : ∀ i, (∀ k < 8, ¬ (start ≤ 8 * i + k ∧ 8 * i + k < start + 16)) →
      d.getD i 0 = 0 := by
    intro i hi
    apply eq_zero_of_bits
    intro k hk
    by_contra hb
    exact hi k hk (hbit i k hk (by simpa using hb))
  have hpad := pad_three d (start / 8) (fun i hi => hzero i (by omega))
    (fun i hi => hzero i (by omega))
  have hrem : [d.getD (start / 8) 0, d.getD (start / 8 + 1) 0, d.getD (start / 8 + 2) 0].foldl
      refCrcStep 0 = 0 := by
    have h1 := congrArg (List.foldl refCrcStep 0) hpad
    simp only [List.foldl_append, hfold, foldl_refCrcStep_zeros, iterate_crcShift_zero] at h1
    exact (crcShift_injective.iterate (8 * d.length)
      ((iterate_crcShift_zero _).trans h1)).symm
  have hthree := burst_remainder (p := start % 8) (by omega)
    (toNat_lt_of_leading_zeros (by omega) fun k hk => by
      by_contra hb
      have := hbit _ k (by omega) (by simpa using hb)
      omega)
    (toNat_mod_of_trailing_zeros (by omega) fun k hk hk8 => by
      by_contra hb
      have := hbit _ k hk8 (by simpa using hb)
      omega) hrem
  have hall : ∀ i, d.getD i 0 = 0 := by
    intro i
    by_cases h0 : i = start / 8
    · rw [h0]; exact hthree.1
    · by_cases h1 : i = start / 8 + 1
      · rw [h1]; exact hthree.2.1
      · by_cases h2 : i = start / 8 + 2
        · rw [h2]; exact hthree.2.2
        · exact hzero i (by omega)
  apply List.ext_getElem hlen
  intro i h1 h2
  have := hall i
  rw [hdget, show (0 : Byte) = 0#8 from rfl, BitVec.xor_eq_zero_iff] at this
  simpa [List.getD_eq_getElem?_getD, h1, h2] using this.symm

/-- (P4) covers (P3): one bit is a span of 16. -/
theorem singleBitSensitive_of_burstSensitive {maxMsg : Nat} {alg : CksAlg}
    (h : BurstSensitive maxMsg alg) : SingleBitSensitive maxMsg alg := by
  rintro x x' hx hlen ⟨k, hk⟩
  refine h x x' hx hlen (fun e => ?_) ⟨k, fun j hj => ?_⟩
  · have := (hk k).mpr rfl
    simp [e] at this
  · have := (hk j).mp hj
    omega

end Sys2Proof.Machine
end

