-- ==== Sys2Proof/Tests/Slice0.lean ====
section
/-! SUPPORT. Tests: ill-formed instructions are refused, words written out from the spec decode as
the spec says, the functions and single steps give the vectors of 95_test_vectors.md, and each
statement with hypotheses has a concrete instance of them. -/

namespace Sys2Proof.Tests

open Sys2Proof.Machine

/-! ### Ill-formed instructions (R90) -/

theorem test_dataZ1_208_refused : (Instr.codeDataZ1 208).wellFormed = false := by decide
theorem test_zrun_2_refused : (Instr.codeZrun 2).wellFormed = false := by decide
theorem test_zrun_16_refused : (Instr.codeZrun 16).wellFormed = false := by decide
theorem test_dataZ2_32_refused : (Instr.codeDataZ2 32).wellFormed = false := by decide
theorem test_range_ends_accepted :
    ([.codeDataZ1 0, .codeDataZ1 207, .codeZrun 3, .codeZrun 15, .codeDataZ2 0,
      .codeDataZ2 31] : List Instr).all Instr.wellFormed = true := by decide

/-! ### Words written out from R80, R82 and R90 -/

theorem test_decode_control : decodeCommand 0b0000000011111111 = .ok .nop := by rfl
theorem test_decode_encStart : decodeCommand 0b0001000010101011 = .ok .encStart := by rfl
theorem test_decode_encFeed : decodeCommand 0b0001000101000001 = .ok (.encFeed 0x41) := by rfl
theorem test_decode_encFinish : decodeCommand 0b0001001000000000 = .ok .encFinish := by rfl
theorem test_decode_decStart : decodeCommand 0b0010000000000000 = .ok .decStart := by rfl
theorem test_decode_decFeed : decodeCommand 0b0010000100000010 = .ok (.decFeed 0x02) := by rfl
theorem test_decode_decFinish : decodeCommand 0b0010001000000000 = .ok .decFinish := by rfl
theorem test_decode_cksInit : decodeCommand 0b0011000000000000 = .ok .cksInit := by rfl
theorem test_decode_cksFeed : decodeCommand 0b0011000100110001 = .ok (.cksFeed 0x31) := by rfl
theorem test_decode_txBegin : decodeCommand 0b0100000000000000 = .ok .txBegin := by rfl
theorem test_decode_txPush : decodeCommand 0b0100000101000010 = .ok (.txPush 0x42) := by rfl
theorem test_decode_txSend : decodeCommand 0b0100001000000000 = .ok .txSend := by rfl
theorem test_decode_rxByte : decodeCommand 0b0101000011100001 = .ok (.rxByte 0xE1) := by rfl
theorem test_decode_unassigned :
    decodeCommand 0b0001001100000000 = .error (.unassignedOpcode 0x13) := by rfl
theorem test_decode_codeBytes :
    [0b00000000, 0b00000001, 0b00100000, 0b11010000, 0b11010001, 0b11010010, 0b11010011,
      0b11011111, 0b11100000, 0b11111111].map decodeCodeByte =
    [.codeIllegal, .codeDataZ1 0, .codeDataZ1 31, .codeDataZ1 207, .codeDataMax, .codeReserved,
      .codeZrun 3, .codeZrun 15, .codeDataZ2 0, .codeDataZ2 31] := by decide
theorem test_tableWord :
    decodeTableWord 16 0x1141 = some (.encFeed 0x41) ∧ decodeTableWord 8 0xD1 = some .codeDataMax ∧
    decodeTableWord 16 0x1300 = none := by decide

/-! ### The assembler (R85; programs of 95_test_vectors.md L3) -/

theorem test_assemble_encode_of_nothing :
    assemble ["ENCODE ; no bytes".toList] = some [0x1000, 0x1200] := by decide
theorem test_assemble_send_word_imm :
    assemble ["SEND 0x41, 66".toList, "  .word 0x1300".toList, "ENC_FEED 0x41".toList,
      "ENC_FEED 256".toList] = none ∧
    assemble ["SEND 0x41, 66".toList, "  .word 0x1300".toList, "ENC_FEED 0x41".toList] =
      some [0x4000, 0x4141, 0x4142, 0x4200, 0x1300, 0x1141] := by decide

/-! ### The functions (95_test_vectors.md L2) -/

/-- E1 to E4, E6 to E9, E12 to E19, E21. -/
theorem test_encode_vectors :
    ([([], [0x01]), ([0], [0xE0]), ([0, 0], [0xD3]), ([0, 0, 0], [0xD4]), (zeros 14, [0xDF]),
      (zeros 15, [0xDF, 0x01]), (zeros 16, [0xDF, 0xE0]), (zeros 17, [0xDF, 0xD3]),
      ([0x41], [0x02, 0x41]), ([0x41, 0], [0xE1, 0x41]), ([0x41, 0, 0], [0xE1, 0x41, 0x01]),
      ([0x41, 0, 0, 0], [0xE1, 0x41, 0xE0]), (0x41 :: zeros 4, [0xE1, 0x41, 0xD3]),
      ([0x11, 0, 0x22], [0x02, 0x11, 0x02, 0x22]), ([0, 0x41], [0x01, 0x02, 0x41]),
      ([0x41, 0, 0, 0x42], [0xE1, 0x41, 0x02, 0x42]),
      (List.replicate 31 1 ++ [0], 0xFF :: List.replicate 31 1)] :
      List (List Byte × List Byte)).all (fun v => stuffEncode v.1 == v.2) = true := by
  decide +kernel

/-- E25, E26, E28: the run limit. -/
theorem test_encode_runLimit :
    stuffEncode (List.replicate 207 1) = 0xD0 :: List.replicate 207 1 ∧
    stuffEncode (List.replicate 208 1) = 0xD1 :: (List.replicate 208 1 ++ [0x01]) ∧
    stuffEncode (List.replicate 208 1 ++ [0]) = 0xD1 :: (List.replicate 208 1 ++ [0xE0]) := by
  decide +kernel

/-- D1 to D9, D13, D16 to D22. -/
theorem test_decode_vectors :
    ([([], .ok []), ([0x01], .ok []), ([0xE0], .ok [0]), ([0xD3], .ok [0, 0]),
      ([0xDF], .ok (zeros 14)), ([0x02, 0x41], .ok [0x41]), ([0xE1, 0x41], .ok [0x41, 0]),
      ([0x02, 0x41, 0x01], .ok [0x41, 0]), ([0xE0, 0xE0], .ok [0, 0, 0]),
      (List.replicate 9 0xDF ++ [0x01], .ok (zeros 135)), ([0x00], .format), ([0xD2], .format),
      ([0x02, 0x41, 0xD2], .format), ([0x05, 0x41, 0x42], .format), ([0x03, 0x41, 0x00], .format),
      ([0x02, 0x41, 0x00], .format), (List.replicate 9 0xDF ++ [0xD2], .format)] :
      List (List Byte × Decoded)).all (fun v => stuffDecode v.1 == v.2) = true := by
  decide +kernel

/-- D14: a last DATA_MAX block drops nothing. -/
theorem test_decode_dataMax :
    stuffDecode (0xD1 :: List.replicate 208 1) = .ok (List.replicate 208 1) := by decide +kernel

/-- E14, E19, E29 through the streaming encoder (R113). -/
theorem test_stream_vectors :
    streamEncode [0x41, 0, 0] = [0xE1, 0x41, 0x01] ∧
    streamEncode [0x41, 0, 0, 0x42] = [0xE1, 0x41, 0x02, 0x42] ∧
    streamEncode (List.replicate 208 1 ++ [0, 0]) = 0xD1 :: (List.replicate 208 1 ++ [0xD3]) := by
  decide +kernel

/-- K1 to K5, K7, K8, K14 under REF_CRC. -/
theorem test_checksum_vectors :
    ([([], 0xFFFF), ([0x31, 0x32, 0x33, 0x34, 0x35, 0x36, 0x37, 0x38, 0x39], 0x29B1),
      ([0x00], 0xE1F0), ([0x00, 0x00], 0x1D0F), ([0x41], 0xB915), ([0x41, 0, 0], 0xE601),
      ([0x42, 0, 0], 0xBF51), ([0xFF, 0xFF], 0x0000)] :
      List (List Byte × Word)).all (fun v => checksum .refCrc v.1 == v.2) = true := by
  decide +kernel

/-- F1, F2, F3, F7, F10 under REF_CRC. -/
theorem test_frame_vectors :
    ([([], 0x0000, [0xE0, 0x03, 0x0F, 0x1D, 0x00]), ([0x41], 0x0000, [0xE1, 0x41, 0x03, 0x01, 0xE6, 0x00]),
      ([0x00], 0x0001, [0x01, 0x02, 0x01, 0x03, 0xAD, 0xFF, 0x00]),
      ([], 0xFFFF, [0xE2, 0xFF, 0xFF, 0x01, 0x00]),
      (0x01 :: zeros 6, 0x0005, [0xE1, 0x01, 0xD4, 0x02, 0x05, 0x03, 0xA4, 0x0C, 0x00])] :
      List (List Byte × Word × List Byte)).all
        (fun v => buildFrame .refCrc v.1 v.2.1 == v.2.2) = true := by
  decide +kernel

/-! ### Single steps -/

/-- Whether an outcome is a next state with a property. -/
def after (o : Host.Outcome State Fault Refusal) (p : State → Bool) : Bool :=
  match o with
  | .next t => p t
  | .fault _ => false
  | .refused _ => false

/-- The reset state of a block whose algorithm is REF_CRC (R176), for the vectors marked so. -/
def refState : State :=
  { State.reset with params := { Params.default with cksAlg := .refCrc }, cks := 0xFFFF }

/-- X1, X5: `NOP` clears ILLEGAL. -/
theorem test_nop_clears_illegal :
    after (exec .nop { State.reset with cmdStatus := .illegal }) (fun t => t.cmdStatus == .ok) = true := by
  decide

/-- X3: word 1300, run as the first one after reset. -/
theorem test_step_illegal :
    after (step (State.reset.withFetchWord 16 0x1300))
      (fun t => t.cmdStatus == .illegal && t.port == []) = true := by decide

/-- EC1. -/
theorem test_step_encStart :
    after (step (State.reset.withFetchWord 16 0x1000))
      (fun t => t.enc.phase == .opened && t.enc.status == .ok && t.enc.nin == 0) = true := by decide

/-- EC2. -/
theorem test_step_encFeed_idle :
    after (step (State.reset.withFetchWord 16 0x1141))
      (fun t => t.enc.status == .seqErr && t.enc.phase == .idle && t.enc.nin == 0 &&
        t.cmdStatus == .ok) = true := by decide

/-- An open encoding that has accepted some bytes. -/
def encodingOf (x : List Byte) : State :=
  { State.reset with
    enc := { EncUnit.reset with phase := .opened, inp := x, nin := BitVec.ofNat 16 x.length } }

/-- EC9, feed 133. -/
theorem test_encFeed_133_is_nomem :
    after (exec (.encFeed 0xFF) (encodingOf (List.replicate 132 0xFF)))
      (fun t => t.enc.status == .noMem && t.enc.nin == 132) = true := by decide +kernel

/-- P1: the encoding of 41 00 00 42, read from `ENC_OUT`. -/
theorem test_encFinish_reads :
    after (exec .encFinish (encodingOf [0x41, 0, 0, 0x42]))
      (fun t => t.enc.len == 4 && (List.range 5).map (bufRead t .encOut) ==
        [some 0xE1, some 0x41, some 0x02, some 0x42, none]) = true := by decide +kernel

/-- EC3. -/
theorem test_encFinish_idle :
    after (exec .encFinish State.reset) (fun t => t.enc.status == .seqErr && t.enc.len == 0) = true := by
  decide

/-- An open decoding that has been fed some bytes. -/
def decodingOf (x : List Byte) : State :=
  { State.reset with dec := { DecUnit.reset with phase := .opened, inp := x } }

theorem test_decStart :
    after (exec .decStart (decodingOf [0x05])) (fun t => t.dec.inp == [] && t.dec.phase == .opened) = true := by
  decide

/-- DC1. -/
theorem test_decFeed_idle :
    after (exec (.decFeed 0) State.reset) (fun t => t.dec.status == .seqErr) = true := by decide

/-- DC4. -/
theorem test_decFinish_reads :
    after (exec .decFinish (decodingOf [0x02, 0x11, 0x02, 0x22]))
      (fun t => t.dec.status == .ok && t.dec.len == 3 &&
        (List.range 4).map (bufRead t .decOut) == [some 0x11, some 0x00, some 0x22, none]) = true := by
  decide +kernel

/-- DC5: NOMEM with the would-be length, and nothing readable. -/
theorem test_decFinish_nomem :
    after (exec .decFinish (decodingOf (List.replicate 9 0xDF ++ [0x01])))
      (fun t => t.dec.status == .noMem && t.dec.len == 135 && bufRead t .decOut 0 == none) = true := by
  decide +kernel

theorem test_cksInit :
    after (exec .cksInit { refState with cks := 0 }) (fun t => t.cks == 0xFFFF) = true := by decide

/-- K5. -/
theorem test_cksFeed : after (exec (.cksFeed 0x41) refState) (fun t => t.cks == 0xB915) = true := by
  decide +kernel

/-- A staged payload, and the free space the TX queue shows. -/
def staged (x : List Byte) (free : Nat) : State :=
  { refState with
    tx := { TxUnit.reset with len := BitVec.ofNat 16 x.length, pay := bufWriteAll 128 [] 0 x }
    txqFree := free }

theorem test_txBegin :
    after (exec .txBegin (staged [0x41] 0)) (fun t => t.tx.len == 0 && t.tx.seq == 0) = true := by decide

theorem test_txPush :
    after (exec (.txPush 0x41) State.reset)
      (fun t => t.tx.len == 1 && memRead t.tx.pay 0 == some 0x41) = true := by decide

/-- T7: push 129 saturates. -/
theorem test_txPush_129 :
    after (exec (.txPush 0x01) (staged (List.replicate 128 0x01) 0)) (fun t => t.tx.len == 129) = true := by
  decide +kernel

/-- T2, first send. -/
theorem test_txSend_queues :
    after (exec .txSend (staged [0x41] 6))
      (fun t => t.txOut == [0xE1, 0x41, 0x03, 0x01, 0xE6, 0x00] && t.tx.seq == 1 && t.tx.good == 1 &&
        t.tx.flen == 6) = true := by decide +kernel

/-- T3. -/
theorem test_txSend_nobuf :
    after (exec .txSend (staged [0x41] 5))
      (fun t => t.txOut == [] && t.tx.status == .noBuf && t.tx.seq == 1 && t.tx.nobuf == 1 &&
        t.tx.flen == 6) = true := by decide +kernel

/-- An accumulated partial frame. -/
def receiving (x : List Byte) : State :=
  { refState with
    rx := { RxUnit.reset with cnt := BitVec.ofNat 16 x.length, buf := bufWriteAll 134 [] 0 x } }

/-- RX2 with frame F6: the last byte. -/
theorem test_rx_good_frame :
    after (exec (.rxByte 0) (receiving [0x05, 0x41, 0x42, 0x43, 0x02, 0x03, 0x5E, 0x0B]))
      (fun t => t.rx.good == 1 && t.rx.cnt == 0 && t.deliveries == [[0x41, 0x42, 0x43]]) = true := by
  decide +kernel

/-- RX13: the 134th byte. -/
theorem test_rx_oversize :
    after (exec (.rxByte 1) (receiving (List.replicate 133 1)))
      (fun t => t.rx.oversize == 1 && t.rx.cnt == 0) = true := by decide +kernel

/-- A decode loop about to read some bytes. -/
def scanning (x : List Byte) : State := { State.reset with scan := scanStart x }

theorem test_code_dataZ1 :
    after (exec (.codeDataZ1 1) (scanning [0x41, 0x01]))
      (fun t => t.scan.out == [0x41, 0] && t.scan.rest == [0x01] && t.scan.lastZ == 1) = true := by decide

/-- D20: a zero literal. -/
theorem test_code_dataZ2_zeroLiteral :
    after (exec (.codeDataZ2 2) (scanning [0x41, 0x00])) (fun t => scanResult t.scan == .format) = true := by
  decide

theorem test_code_dataMax :
    after (exec .codeDataMax (scanning (List.replicate 208 7)))
      (fun t => t.scan.out == List.replicate 208 7 && t.scan.lastZ == 0) = true := by decide +kernel

theorem test_code_zrun :
    after (step (State.reset.withFetchWord 8 0xDF))
      (fun t => t.scan.out == zeros 15 && scanResult t.scan == .ok (zeros 14)) = true := by decide

theorem test_code_illegal_and_reserved :
    after (step (State.reset.withFetchWord 8 0x00)) (fun t => scanResult t.scan == .format) = true ∧
    after (step (State.reset.withFetchWord 8 0xD2)) (fun t => scanResult t.scan == .format) = true := by
  decide

/-- L2.11: reads right after reset. -/
theorem test_reset_reads :
    readReg State.reset 0x0B = some 0 ∧ readReg refState 0x08 = some 0xFFFF ∧
    readReg State.reset 0x0E = none ∧ readReg State.reset 0x0F = none ∧
    readReg State.reset 0x17 = none ∧ bufRead State.reset .encOut 0 = none := by decide

/-- R9: the default capacities are what the formulas give. -/
theorem test_default_capacities :
    Params.default.wf = true ∧ Params.default.fitsWidths = true ∧
    Params.default.carriesEveryFrame = true ∧
    Params.default.encCap = worstCase (Params.default.maxMsg + Config.ovh) ∧
    Params.default.decCap = Params.default.maxMsg + Config.ovh ∧
    Params.default.rxbufSize = worstCase (Params.default.maxMsg + Config.ovh) + 1 := by decide

/-! ### Instances of the statements' hypotheses -/

theorem witness_wellFormed : (Instr.codeZrun 15).wellFormed = true := by decide

theorem witness_opcodeMap :
    (BitVec.ofNat 8 ((0x50FF : Word).toNat / 256), "RX_BYTE") ∈ opcodeMap ∧
    ∀ m : String, (BitVec.ofNat 8 ((0x5100 : Word).toNat / 256), m) ∉ opcodeMap := by
  refine ⟨by decide, fun m h => ?_⟩
  simp [opcodeMap] at h

theorem witness_immediates :
    (0x12 : Byte) ∉ [0x11, 0x21, 0x31, 0x41, 0x50] ∧ encode (.encFeed 0x41) = .command 0x1141 ∧
    (0x1141 : Word).toNat % 256 ≠ 0 := by decide

/-- A state with a command waiting, then a reset event. -/
def waiting (w : Word) : State := { State.reset with port := [.command w 9, .reset] }

theorem witness_step_command :
    scanActive (waiting 0x1141).scan = false ∧
    (waiting 0x1141).port = .command 0x1141 9 :: [.reset] ∧
    decodeCommand 0x1141 = .ok (.encFeed 0x41) := ⟨rfl, rfl, rfl⟩

theorem witness_step_codeByte :
    (scanning [0xE1, 0x41]).scan.format = false ∧ (scanning [0xE1, 0x41]).scan.rest = 0xE1 :: [0x41] :=
  ⟨rfl, rfl⟩

theorem witness_step_unassigned :
    scanActive (waiting 0xFFFF).scan = false ∧ (waiting 0xFFFF).port = .command 0xFFFF 9 :: [.reset] ∧
    decodeCommand 0xFFFF = .error (.unassignedOpcode 0xFF) ∧ isCommand (.rxByte 0) = true :=
  ⟨rfl, rfl, rfl, rfl⟩

theorem witness_cmdStatus :
    scanActive (waiting 0x1300).scan = false ∧ (waiting 0x1300).port = .command 0x1300 9 :: [.reset] ∧
    (∀ m : String, (BitVec.ofNat 8 ((0x1300 : Word).toNat / 256), m) ∉ opcodeMap) ∧
    (BitVec.ofNat 8 ((0x1200 : Word).toNat / 256), "ENC_FINISH") ∈ opcodeMap := by
  refine ⟨rfl, rfl, fun m h => ?_, by decide⟩
  simp [opcodeMap] at h

theorem witness_resetEvent :
    scanActive ({ staged [0x41] 6 with port := [.reset, .command 0 0] }).scan = false ∧
    ({ staged [0x41] 6 with port := [.reset, .command 0 0] }).port = .reset :: [.command 0 0] :=
  ⟨rfl, rfl⟩

/-- A state in the middle of its work: an encoding read out, a decoding open, a payload staged, a
frame partly received, a command waiting. -/
def busy : State :=
  { refState with
    enc := { phase := .idle, status := .ok, nin := 1, len := 2, inp := [0x41]
             out := [(0, 0x02), (1, 0x41)], outValid := true }
    dec := { DecUnit.reset with phase := .opened, inp := [0x01] }
    tx := { TxUnit.reset with len := 1, pay := [(0, 0x41)] }
    rx := { RxUnit.reset with cnt := 1, buf := [(0, 0x05)] }
    port := [.command 0x2200 0] }

theorem witness_invariant : Inv busy := by
  constructor <;> decide

theorem witness_invariant_step : Inv busy ∧ ∃ t, step busy = .next t :=
  ⟨witness_invariant, _, rfl⟩

/-- After the block E1 41: a reserved code byte, a truncated block, and a zero literal. -/
theorem witness_malformed :
    (∀ b ∈ [((0xE1 : Byte), [(0x41 : Byte)])], goodBlock b) ∧ codeClass 0x03 = some (2, 1) ∧
    ([0x41] : List Byte).length < 2 ∧ 2 ≤ ([0x41, 0x00] : List Byte).length ∧
    (0 : Byte) ∈ ([0x41, 0x00] : List Byte).take 2 := by
  refine ⟨fun b hb => ?_, by decide, by decide, by decide, by decide⟩
  rw [List.mem_singleton.mp hb]
  exact ⟨2, by decide, by decide⟩

theorem witness_goodBlocks :
    ∃ bs : List (Byte × List Byte), (∀ b ∈ bs, goodBlock b) ∧
      ([0xE1, 0x41, 0xD1] ++ List.replicate 208 7 : List Byte) = blockBytes bs ∧ lastZeros bs = 0 := by
  refine ⟨[(0xE1, [0x41]), (0xD1, List.replicate 208 7)], fun b hb => ?_, by decide +kernel,
    by decide +kernel⟩
  simp only [List.mem_cons, List.not_mem_nil, or_false] at hb
  rcases hb with rfl | rfl
  · exact ⟨2, by decide, by decide⟩
  · exact ⟨0, by decide +kernel, by decide +kernel⟩

theorem witness_scan : (scanning [0xE1, 0x41, 0x01]).scan = scanStart [0xE1, 0x41, 0x01] := rfl

theorem witness_badCodes : Instr.codeIllegal = .codeIllegal ∨ Instr.codeIllegal = .codeReserved :=
  .inl rfl

/-- Byte 132 is the last one accepted, byte 133 the first refused. -/
theorem witness_encFeed_limits :
    State.reset.params.encCap = 133 ∧
    (encodingOf (List.replicate 131 1)).enc.phase = .opened ∧
    (encodingOf (List.replicate 131 1)).enc.status ≠ .noMem ∧
    (encodingOf (List.replicate 131 1)).enc.nin.toNat = 131 ∧
    (encodingOf (List.replicate 132 1)).enc.nin.toNat = 132 ∧
    (encodingOf (List.replicate 132 1)).enc.nin.toNat ≤ State.reset.params.encCap - 1 := by
  decide +kernel

theorem witness_encFinish_fits :
    (encodingOf [0x41]).enc.phase ≠ .idle ∧ (encodingOf [0x41]).enc.status ≠ .noMem ∧
    worstCase (encodingOf [0x41]).enc.inp.length ≤ (encodingOf [0x41]).params.encCap ∧
    (encodingOf [0x41]).params.encCap < 65536 := by decide

theorem witness_split :
    State.reset.params.encCap < 65536 ∧
    worstCase ([[0x41], [], [0x00, 0x42]] : List (List Byte)).flatten.length ≤
      State.reset.params.encCap := by decide

theorem witness_overlong :
    State.reset.params.wf = true ∧ State.reset.params.encCap < 65536 ∧
    State.reset.params.encCap < worstCase (zeros 133).length := by decide +kernel

theorem witness_decFinish_ok :
    (decodingOf [0xD3]).dec.phase = .opened ∧ stuffDecode (decodingOf [0xD3]).dec.inp = .ok [0, 0] ∧
    ([0, 0] : List Byte).length < 2 ^ 32 - 1 := by decide

theorem witness_roundTrip :
    State.reset.params.fitsWidths = true ∧ (zeros 132).length ≤ State.reset.params.decCap ∧
    worstCase (zeros 132).length ≤ State.reset.params.encCap := by decide +kernel

/-- The three clauses of `TX_PUSH`, at TX_LEN 127, 128 and 129. -/
theorem witness_txPush :
    (staged (List.replicate 127 1) 0).tx.len.toNat < (staged [] 0).params.maxMsg ∧
    (staged (List.replicate 128 1) 0).tx.len.toNat = (staged [] 0).params.maxMsg ∧
    (staged [] 0).params.maxMsg < (staged (List.replicate 129 1) 0).tx.len.toNat := by decide +kernel

theorem witness_pushed :
    State.reset.params.fitsWidths = true ∧
    ([0x41, 0x00] : List Byte).length ≤ State.reset.params.maxMsg := by decide

/-- The three clauses of `TX_SEND`: 129 bytes staged, and a frame of 6 bytes with 5 and 6 bytes
free. -/
theorem witness_txSend :
    (staged [] 0).params.maxMsg < (staged (List.replicate 129 1) 0).tx.len.toNat ∧
    (staged [0x41] 5).tx.len.toNat ≤ (staged [0x41] 5).params.maxMsg ∧
    (buildFrame .refCrc (stagedPayload (staged [0x41] 5).tx) 0).length = 6 := by decide +kernel

theorem witness_builtFrame :
    (List.replicate 128 (0x41 : Byte)).length ≤ 128 ∧ Params.default.wf = true ∧
    Params.default.maxMsg = 128 := by decide +kernel

/-- T5: two sends in a row, the first without space. -/
theorem witness_successiveSends :
    scanActive ({ staged [0x41] 0 with port := [.command 0x4200 5, .command 0x4200 9] }).scan = false ∧
    ({ staged [0x41] 0 with port := [.command 0x4200 5, .command 0x4200 9] }).port =
      [5, 9].map (Input.command 0x4200) ++ [] ∧
    (staged [0x41] 0).tx.len.toNat ≤ (staged [0x41] 0).params.maxMsg := ⟨rfl, rfl, by decide⟩

theorem witness_queueDuty : QueueDuty 6 (staged [0x41] 6) := Nat.le_refl 6

/-- Byte 133 still fits `RXBUF`, byte 134 discards it. -/
theorem witness_lineByte :
    (0x01 : Byte) ≠ 0 ∧
    ((receiving (List.replicate 133 1)).rx.cnt + 1).toNat = refState.params.rxbufSize ∧
    ((receiving (List.replicate 132 1)).rx.cnt + 1).toNat ≠ refState.params.rxbufSize := by
  decide +kernel

theorem witness_loopback :
    refState.params.fitsWidths = true ∧ refState.params.carriesEveryFrame = true ∧
    ([0x41, 0x42, 0x43] : List Byte).length ≤ refState.params.maxMsg ∧ refState.rx.cnt = 0 ∧
    refState.rx.buf = [] ∧
    InboundDuty (buildFrame .refCrc [0x41, 0x42, 0x43] 2)
      ((buildFrame .refCrc [0x41, 0x42, 0x43] 2).map .rxByte) :=
  ⟨by decide, by decide, by decide, by decide, by decide, rfl⟩

/-- P5: payload 41 42 43 with its second byte changed to 43, under REF_CRC, which has (P4). -/
theorem witness_corrupted :
    BurstSensitive refState.params.maxMsg refState.params.cksAlg ∧
    refState.params.fitsWidths = true ∧ refState.params.carriesEveryFrame = true ∧
    ([0x41, 0x42, 0x43] : List Byte).length ≤ refState.params.maxMsg ∧ refState.rx.cnt = 0 ∧
    refState.rx.buf = [] ∧ 1 < ([0x41, 0x42, 0x43] : List Byte).length ∧
    ([0x41, 0x42, 0x43] : List Byte)[1]? ≠ some 0x43 ∧
    InboundDuty (stuffEncode (([0x41, 0x42, 0x43] : List Byte).set 1 0x43 ++ le16 0 ++
        le16 (genCks refState.params.cksAlg [0x41, 0x42, 0x43] 0)) ++ [0])
      ([0xE3, 0x41, 0x43, 0x43, 0x03, 0x3C, 0x6D, 0x00].map .rxByte) :=
  ⟨refCrc_burstSensitive 128, by decide, by decide, by decide, by decide, by decide, by decide,
    by decide, congrArg (List.map Instr.rxByte) (by decide +kernel)⟩

/-- K7 with the lowest bit of its payload byte flipped, under REF_CRC, which has (P3). -/
theorem witness_singleBit :
    SingleBitSensitive 128 .refCrc ∧ ([0x41, 0x00, 0x00, 0x01, 0xE6] : List Byte).length ≤ 128 + 4 ∧
    verifies .refCrc [0x41, 0x00, 0x00, 0x01, 0xE6] = true ∧
    ([0x40, 0x00, 0x00, 0x01, 0xE6] : List Byte).length =
      ([0x41, 0x00, 0x00, 0x01, 0xE6] : List Byte).length ∧
    ∃ k, ∀ j, bitAt [0x41, 0x00, 0x00, 0x01, 0xE6] j ≠ bitAt [0x40, 0x00, 0x00, 0x01, 0xE6] j ↔ j = k := by
  refine ⟨singleBitSensitive_of_burstSensitive (refCrc_burstSensitive 128), by decide,
    by decide +kernel, by decide, 7, fun j => ?_⟩
  by_cases hj : j < 8
  · revert hj
    revert j
    decide
  · obtain ⟨i, hi⟩ := Nat.exists_eq_add_of_le (show 1 ≤ j / 8 by omega)
    have hne : j ≠ 7 := by omega
    simp [bitAt, hi, Nat.add_comm 1 i, hne]

theorem witness_lineInstr : Instr.rxByte 0x01 ≠ .txSend ∧ (∀ b, Instr.nop ≠ .rxByte b) ∧ (0x01 : Byte) ≠ 0 := by
  refine ⟨by decide, fun b h => ?_, by decide⟩
  cases h

/-- Two states that differ in their counters only. -/
theorem witness_counters :
    eraseCounters busy = eraseCounters { busy with rx := { busy.rx with good := 7 } } := rfl

theorem witness_differentUnits : unitOf .encFinish ≠ unitOf .txSend := by decide

theorem witness_idempotent : Instr.cksInit ∈ [Instr.nop, .cksInit, .encStart, .decStart, .txBegin] := by
  decide

end Sys2Proof.Tests
end

