-- ==== Sys2Proof/Proofs/Scope.lean ====
section
/-! Proofs of the statements on 00_scope.md: what one step runs (R11, R21), and that no step changes
the parameters (R2, R171). -/

namespace Sys2Proof.Machine

/-! ### What a step does with each thing it can fetch -/

theorem step_of_fetch_idle {s : State} (h : fetch s = .idle) : step s = .next s := by
  simp [step, h]

theorem step_of_fetch_reset {s t : State} (h : fetch s = .reset t) :
    step s = .next (resetEvent t) := by
  simp [step, h]

theorem step_of_fetch_run {s t : State} {i : Instr} (h : fetch s = .run i t) :
    step s = exec i t := by
  simp [step, h]

theorem step_of_fetch_illegal {s t : State} (h : fetch s = .illegal t) :
    step s = .next (illegalCommand t) := by
  simp [step, h]

/-- Settles O7: the word is what `fetch` takes from the port, and the step runs what it fetches. -/
theorem stepRunsTheDecodedCommand : Obligations.StepRunsTheDecodedCommand := by
  intro s w free inputs i hidle hport hdecode
  exact step_of_fetch_run (fetch_command hidle hport hdecode)

/-! ### The parameters -/

/-- A line byte writes the deframer's registers, and at most one delivery besides. -/
theorem ingest_cases (b : Byte) (s : State) :
    ∃ u, ingest b s = s.setRx u ∨ ∃ body, ingest b s = (s.setRx u).deliver body := by
  unfold ingest
  split
  · simp only [completeFrame]
    split
    · exact ⟨_, .inl rfl⟩
    · next body _ => exact ⟨_, .inr ⟨body, rfl⟩⟩
  · exact ⟨_, .inl rfl⟩

@[simp] theorem ingest_params (b : Byte) (s : State) : (ingest b s).params = s.params := by
  obtain ⟨u, h | ⟨body, h⟩⟩ := ingest_cases b s <;> simp [h]

@[simp] theorem sendStaged_params (s : State) : (sendStaged s).params = s.params := by
  obtain ⟨-, h⟩ | ⟨-, -, h⟩ | ⟨-, -, h⟩ := sendStaged_cases s <;> simp [h]

/-- Every instruction completes with the parameters as they were. Only `TX_SEND` and `RX_BYTE`
choose, by a test on the state, which parts of it to write. -/
theorem exec_keeps_params (i : Instr) (s : State) :
    ∃ t, exec i s = .next t ∧ t.params = s.params := by
  cases i with
  | txSend => exact ⟨completeCommand (sendStaged s), rfl, by simp⟩
  | rxByte imm => exact ⟨completeCommand (ingest imm s), rfl, by simp⟩
  | _ => exact ⟨_, rfl, rfl⟩

/-- Settles O55, by the five things a step can meet. -/
theorem noStepChangesTheParameters : Obligations.NoStepChangesTheParameters := by
  intro s
  obtain ⟨c, rest, -, -, hf⟩ | ⟨-, -, hf⟩ | ⟨inputs, -, -, hf⟩ | ⟨w, free, inputs, i, -, -, -, hf⟩ |
    ⟨w, free, inputs, r, -, -, -, hf⟩ := fetch_cases s
  · rw [step_of_fetch_run hf]
    exact exec_keeps_params (decodeCodeByte c) (s.setScan { s.scan with rest := rest })
  · exact ⟨s, step_of_fetch_idle hf, rfl⟩
  · exact ⟨resetEvent (s.setPort inputs), step_of_fetch_reset hf, by simp⟩
  · rw [step_of_fetch_run hf]
    exact exec_keeps_params i ((s.setPort inputs).setTxqFree free)
  · exact ⟨illegalCommand ((s.setPort inputs).setTxqFree free), step_of_fetch_illegal hf, by simp⟩

end Sys2Proof.Machine
end

/-! Proofs of the statements on 10_state.md: the register reads (R46, R47), what each unit keeps to
itself (R278), the link statistics counters (R45), and the invariant of the block's state. -/

namespace Sys2Proof.Machine

/-! ### Line bytes -/

@[simp] theorem ingest_zero (s : State) : ingest 0 s = completeFrame s := rfl

theorem ingest_of_ne {b : Byte} (hb : b ≠ 0) (s : State) :
    ingest b s = s.setRx (accumulate s.params b s.rx) := if_neg hb

/-- The three outcomes of a completed frame: the buffer is emptied and one counter raised, and a
frame that verifies is delivered. -/
theorem completeFrame_cases (s : State) :
    let r := stuffDecode (accumulated s.rx)
    let emptied := { s.rx with cnt := 0, buf := [] }
    ((r = .format ∨ ∃ d, r = .ok d ∧ s.params.decCap < d.length) ∧
      completeFrame s = s.setRx { emptied with decFail := countUp s.rx.decFail }) ∨
    (∃ d, r = .ok d ∧ d.length ≤ s.params.decCap ∧ verifies s.params.cksAlg d = false ∧
      completeFrame s = s.setRx { emptied with cksFail := countUp s.rx.cksFail }) ∨
    (∃ d, r = .ok d ∧ d.length ≤ s.params.decCap ∧ verifies s.params.cksAlg d = true ∧
      completeFrame s =
        (s.setRx { emptied with good := countUp s.rx.good }).deliver
          (d.take (d.length - Config.ovh))) := by
  intro r emptied
  obtain ⟨hr, e⟩ | ⟨d, hr, hc, hv, e⟩ | ⟨d, hr, hc, hv, e⟩ :=
    frameOutcome_cases s.params r emptied
  · exact .inl ⟨hr, by simp only [completeFrame]; rw [e]⟩
  · exact .inr (.inl ⟨d, hr, hc, hv, by simp only [completeFrame]; rw [e]⟩)
  · exact .inr (.inr ⟨d, hr, hc, hv, by simp only [completeFrame]; rw [e]⟩)

/-! ### The host's register reads -/

/-- Settles O14: the assigned numbers by the rows of the read port, and every other number by its
last row. -/
theorem registerReadsFollowTheRegisterMap : Obligations.RegisterReadsFollowTheRegisterMap := by
  intro s
  refine ⟨rfl, fun n hn => ?_⟩
  unfold readReg
  split
  case h_22 => rfl
  all_goals exact absurd (by decide) hn

/-! ### The units -/

/-- A send writes the framer's registers, and at most one frame to the queue besides. -/
theorem sendStaged_writes (s : State) :
    ∃ u, sendStaged s = s.setTx u ∨ ∃ frame, sendStaged s = (s.setTx u).pushTx frame := by
  obtain ⟨-, e⟩ | ⟨-, -, e⟩ | ⟨-, -, e⟩ := sendStaged_cases s
  · exact ⟨_, .inl e⟩
  · exact ⟨_, .inl e⟩
  · exact ⟨_, .inr ⟨_, e⟩⟩

/-- Settles O58. The meanings of `TX_SEND` and `RX_BYTE` write their unit and at most one output;
every other meaning is one write of its unit. -/
theorem unitsKeepToTheirOwnState : Obligations.UnitsKeepToTheirOwnState := by
  intro i s
  cases i with
  | txSend =>
    refine ⟨_, rfl, ?_⟩
    obtain ⟨u, e | ⟨frame, e⟩⟩ := sendStaged_writes s <;> simp [unitOf, e]
  | rxByte b =>
    refine ⟨_, rfl, ?_⟩
    obtain ⟨u, e | ⟨body, e⟩⟩ := ingest_cases b s <;> simp [unitOf, e]
  | _ => exact ⟨_, rfl, by simp [unitOf]⟩

/-! ### The counters -/

theorem txPushUnit_counters (p : Params) (b : Byte) (u : TxUnit) :
    (txPushUnit p b u).good = u.good ∧ (txPushUnit p b u).nobuf = u.nobuf ∧
      (txPushUnit p b u).oversize = u.oversize := by
  obtain ⟨-, e⟩ | ⟨-, e⟩ | ⟨-, e⟩ := txPushUnit_cases p b u <;> simp [e]

theorem ingest_tx (b : Byte) (s : State) : (ingest b s).tx = s.tx := by
  obtain ⟨u, e | ⟨body, e⟩⟩ := ingest_cases b s <;> simp [e]

/-- A delimiter raises exactly one of three counters (R214 to R217). -/
theorem completeFrame_counters (s : State) :
    (completeFrame s).rx.oversize = s.rx.oversize ∧
    (((completeFrame s).rx.good = s.rx.good ∧ (completeFrame s).rx.cksFail = s.rx.cksFail ∧
        (completeFrame s).rx.decFail = s.rx.decFail + 1) ∨
      ((completeFrame s).rx.good = s.rx.good ∧ (completeFrame s).rx.cksFail = s.rx.cksFail + 1 ∧
        (completeFrame s).rx.decFail = s.rx.decFail) ∨
      ((completeFrame s).rx.good = s.rx.good + 1 ∧ (completeFrame s).rx.cksFail = s.rx.cksFail ∧
        (completeFrame s).rx.decFail = s.rx.decFail)) := by
  obtain ⟨-, e⟩ | ⟨-, -, -, -, e⟩ | ⟨d, -, -, -, e⟩ := completeFrame_cases s <;> rw [e]
  · exact ⟨rfl, .inl ⟨rfl, rfl, rfl⟩⟩
  · exact ⟨rfl, .inr (.inl ⟨rfl, rfl, rfl⟩)⟩
  · exact ⟨rfl, .inr (.inr ⟨rfl, rfl, rfl⟩)⟩

/-- Any other line byte can raise the oversize counter only (R212). -/
theorem accumulate_counters (p : Params) (b : Byte) (u : RxUnit) :
    (accumulate p b u).good = u.good ∧ (accumulate p b u).cksFail = u.cksFail ∧
    (accumulate p b u).decFail = u.decFail ∧
    ((accumulate p b u).oversize = u.oversize ∨ (accumulate p b u).oversize = u.oversize + 1) := by
  obtain ⟨-, e⟩ | ⟨-, e⟩ := accumulate_cases p b u <;> rw [e]
  · exact ⟨rfl, rfl, rfl, .inr rfl⟩
  · exact ⟨rfl, rfl, rfl, .inl rfl⟩

/-- Settles O56. Only `TX_SEND` and `RX_BYTE` write a counter. -/
theorem countersOnlyCountUp : Obligations.CountersOnlyCountUp := by
  intro i s
  cases i with
  | txSend =>
    refine ⟨_, rfl, ?_⟩
    obtain ⟨-, e⟩ | ⟨-, -, e⟩ | ⟨-, -, e⟩ := sendStaged_cases s <;> simp [e, countUp]
  | txPush b => exact ⟨_, rfl, by simp [txPushUnit_counters]⟩
  | rxByte b =>
    refine ⟨_, rfl, ?_, fun h => absurd rfl (h b), fun _ => by simp [ingest_tx], ?_, ?_⟩
    · by_cases hb : b = 0
      · rw [hb, ingest_zero]
        obtain ⟨ho, hcounters⟩ := completeFrame_counters s
        have htx : (completeFrame s).tx = s.tx := ingest_tx 0 s
        rcases hcounters with ⟨hg, hc, hd⟩ | ⟨hg, hc, hd⟩ | ⟨hg, hc, hd⟩ <;>
          simp [htx, ho, hg, hc, hd]
      · obtain ⟨hg, hc, hd, ho⟩ := accumulate_counters s.params b s.rx
        simpa [ingest_of_ne hb, hg, hc, hd] using ho
    · intro h
      cases h
      rw [ingest_zero, completeCommand_rx]
      obtain ⟨ho, hcounters⟩ := completeFrame_counters s
      refine ⟨ho, ?_⟩
      rcases hcounters with ⟨hg, hc, hd⟩ | ⟨hg, hc, hd⟩ | ⟨hg, hc, hd⟩ <;>
        rw [hg, hc, hd] <;> ac_rfl
    · intro b' hb h
      cases h
      obtain ⟨hg, hc, hd, -⟩ := accumulate_counters s.params b s.rx
      simp [ingest_of_ne hb, hg, hc, hd]
  | _ => exact ⟨_, rfl, by simp [txBeginUnit]⟩

/-! ### What does not depend on the counters -/

theorem txPush_eraseCounters (b : Byte) (s : State) :
    eraseCounters ((eraseCounters s).setTx (txPushUnit s.params b (eraseCounters s).tx)) =
      eraseCounters (s.setTx (txPushUnit s.params b s.tx)) := by
  unfold txPushUnit
  rw [show (eraseCounters s).tx.len = s.tx.len from rfl]
  split_ifs <;> rfl

theorem sendStaged_eraseCounters (s : State) :
    eraseCounters (sendStaged (eraseCounters s)) = eraseCounters (sendStaged s) := by
  simp only [sendStaged, apply_ite eraseCounters]
  rfl

theorem accumulate_eraseCounters (b : Byte) (s : State) :
    eraseCounters ((eraseCounters s).setRx (accumulate s.params b (eraseCounters s).rx)) =
      eraseCounters (s.setRx (accumulate s.params b s.rx)) := by
  unfold accumulate
  rw [show (eraseCounters s).rx.cnt = s.rx.cnt from rfl]
  split_ifs <;> rfl

theorem completeFrame_eraseCounters (s : State) :
    eraseCounters (completeFrame (eraseCounters s)) = eraseCounters (completeFrame s) := by
  unfold completeFrame
  rw [show accumulated (eraseCounters s).rx = accumulated s.rx from rfl]
  cases stuffDecode (accumulated s.rx) with
  | format => rfl
  | ok d =>
    simp only [frameOutcome, show (eraseCounters s).params = s.params from rfl]
    split_ifs <;> rfl

theorem ingest_eraseCounters (b : Byte) (s : State) :
    eraseCounters (ingest b (eraseCounters s)) = eraseCounters (ingest b s) := by
  by_cases hb : b = 0
  · rw [hb]
    exact completeFrame_eraseCounters s
  · rw [ingest_of_ne hb, ingest_of_ne hb]
    exact accumulate_eraseCounters b s

/-- What an instruction does besides counting is decided by the state without its counters. -/
theorem exec_eraseCounters (i : Instr) (s : State) :
    ∃ t u, exec i s = .next t ∧ exec i (eraseCounters s) = .next u ∧
      eraseCounters u = eraseCounters t := by
  cases i with
  | txPush b =>
    exact ⟨_, _, rfl, rfl, congrArg completeCommand (txPush_eraseCounters b s)⟩
  | txSend =>
    exact ⟨_, _, rfl, rfl, congrArg completeCommand (sendStaged_eraseCounters s)⟩
  | rxByte b =>
    exact ⟨_, _, rfl, rfl, congrArg completeCommand (ingest_eraseCounters b s)⟩
  | _ => exact ⟨_, _, rfl, rfl, rfl⟩

/-- Settles O57: both states are led where their common part without the counters leads. -/
theorem noInstructionReadsACounter : Obligations.NoInstructionReadsACounter := by
  intro i s s' h
  obtain ⟨t, u, ht, hu, e⟩ := exec_eraseCounters i s
  obtain ⟨t', u', ht', hu', e'⟩ := exec_eraseCounters i s'
  rw [h, hu', Host.Outcome.next.injEq] at hu
  exact ⟨t, t', ht, ht', by rw [← e, ← e', hu]⟩

/-! ### The runs at the front of a list (R110) -/

/-- A list whose last byte, if it has one, is 0x00, as the phantom zero makes it (R112). -/
def EndsInZero (y : List Byte) : Prop := ∀ b ∈ y.getLast?, b = 0

theorem endsInZero_append_zero (x : List Byte) : EndsInZero (x ++ [0]) := by
  simp [EndsInZero]

theorem EndsInZero.of_append {u v : List Byte} (h : EndsInZero (u ++ v)) : EndsInZero v := by
  intro b hb
  refine h b ?_
  rw [List.getLast?_append, Option.mem_def.mp hb]
  rfl

theorem zeroRun_zero_cons (bs : List Byte) : zeroRun (0 :: bs) = zeroRun bs + 1 := rfl

theorem zeroRun_cons_of_ne {b : Byte} (h : b ≠ 0) (bs : List Byte) : zeroRun (b :: bs) = 0 :=
  if_neg h

theorem dataRun_cons_of_ne {b : Byte} (h : b ≠ 0) (bs : List Byte) :
    dataRun (b :: bs) = dataRun bs + 1 :=
  if_neg h

theorem eq_zeros_append_drop {y : List Byte} {k : Nat} (h : k ≤ zeroRun y) :
    y = zeros k ++ y.drop k := by
  induction y generalizing k with
  | nil => simp_all [zeroRun, zeros]
  | cons b bs ih =>
    cases k with
    | zero => rfl
    | succ k =>
      by_cases hb : b = 0
      · subst hb
        rw [zeroRun_zero_cons] at h
        exact congrArg (0 :: ·) (ih (k := k) (by omega))
      · rw [zeroRun_cons_of_ne hb] at h
        omega

theorem dataRun_le_length (y : List Byte) : dataRun y ≤ y.length := by
  induction y with
  | nil => simp [dataRun]
  | cons b bs ih =>
    simp only [dataRun, List.length_cons]
    split <;> omega

theorem zero_notMem_take_dataRun (y : List Byte) : (0 : Byte) ∉ y.take (dataRun y) := by
  induction y with
  | nil => simp
  | cons b bs ih =>
    by_cases hb : b = 0
    · subst hb
      exact List.not_mem_nil
    · rw [dataRun_cons_of_ne hb, List.take_succ_cons, List.mem_cons]
      exact not_or.mpr ⟨Ne.symm hb, ih⟩

/-- A run of data ends at the end of the list or before a zero. -/
theorem one_le_zeroRun_drop_dataRun {y : List Byte} (h : dataRun y < y.length) :
    1 ≤ zeroRun (y.drop (dataRun y)) := by
  induction y with
  | nil => simp at h
  | cons b bs ih =>
    by_cases hb : b = 0
    · subst hb
      exact Nat.le_add_left 1 (zeroRun bs)
    · rw [dataRun_cons_of_ne hb, List.length_cons] at h
      rw [dataRun_cons_of_ne hb, List.drop_succ_cons]
      exact ih (by omega)

/-- No run of data reaches the end of a list that ends in a zero. -/
theorem dataRun_lt_length {y : List Byte} (hy : y ≠ []) (hz : EndsInZero y) :
    dataRun y < y.length := by
  refine lt_of_le_of_ne (dataRun_le_length y) fun h => ?_
  have hlast : y.getLast hy = 0 := hz _ (List.getLast?_eq_some_getLast hy)
  have hmem := zero_notMem_take_dataRun y
  rw [h, List.take_length] at hmem
  exact hmem (hlast ▸ List.getLast_mem hy)

/-! ### The code bytes the encoder chooses (R90, R91) -/

theorem toNat_codeByteOf {n : Nat} (h : n < 256) : (codeByteOf n).toNat = n := by
  rw [codeByteOf, BitVec.toNat_ofNat]
  omega

/-- The table of R91 in numbers. -/
theorem codeClass_codeByteOf {n : Nat} (h : n < 256) :
    codeClass (codeByteOf n) =
      if n = 0x00 ∨ n = 0xD2 then none
      else if 0x01 ≤ n ∧ n ≤ 0xD0 then some (n - 1, 1)
      else if n = 0xD1 then some (208, 0)
      else if 0xD3 ≤ n ∧ n ≤ 0xDF then some (0, n - 0xD0)
      else some (n - 0xE0, 2) := by
  simp only [codeClass, ← BitVec.toNat_inj, toNat_codeByteOf h]
  rfl

theorem codeClass_zeroRun {m : Nat} (h3 : 3 ≤ m) (h15 : m ≤ 15) :
    codeClass (codeByteOf (0xD0 + m)) = some (0, m) := by
  rw [codeClass_codeByteOf (by omega), if_neg (by omega), if_neg (by omega), if_neg (by omega),
    if_pos (by omega), Nat.add_sub_cancel_left]

theorem codeClass_pair {n : Nat} (h : n ≤ 31) :
    codeClass (codeByteOf (0xE0 + n)) = some (n, 2) := by
  rw [codeClass_codeByteOf (by omega), if_neg (by omega), if_neg (by omega), if_neg (by omega),
    if_neg (by omega), Nat.add_sub_cancel_left]

theorem codeClass_data {n : Nat} (h : n ≤ 207) :
    codeClass (codeByteOf (n + 1)) = some (n, 1) := by
  rw [codeClass_codeByteOf (by omega), if_neg (by omega), if_pos (by omega), Nat.add_sub_cancel]

theorem ne_zero_of_codeClass {c : Byte} {block : Nat × Nat} (h : codeClass c = some block) :
    c ≠ 0 := by
  intro hc
  rw [hc, show codeClass 0 = none from rfl] at h
  cases h

/-- A block covers more bytes of the input than it has literals, that of 208 literals excepted. -/
theorem trailing_or_max_of_codeClass {c : Byte} {literals trailing : Nat}
    (h : codeClass c = some (literals, trailing)) : 1 ≤ trailing ∨ literals = 208 := by
  unfold codeClass at h
  split_ifs at h <;> simp only [Option.some.injEq, Prod.mk.injEq] at h <;> omega

/-! ### The loop of R110 -/

/-- One pass of the loop takes the literals and the zeros of one block off the front of the list,
and emits the block. -/
theorem encodeLoop_pass (fuel : Nat) {y : List Byte} (hy : y ≠ []) (hz : EndsInZero y) :
    ∃ (code : Byte) (lits : List Byte) (trailing : Nat) (rest : List Byte),
      y = lits ++ zeros trailing ++ rest ∧ codeClass code = some (lits.length, trailing) ∧
      (0 : Byte) ∉ lits ∧
      encodeLoop (fuel + 1) y = code :: (lits ++ encodeLoop fuel rest) := by
  obtain ⟨b, bs, rfl⟩ := List.exists_cons_of_ne_nil hy
  simp only [encodeLoop]
  split
  · next hb =>
    have h1 : 1 ≤ zeroRun (b :: bs) := hb ▸ Nat.le_add_left 1 (zeroRun bs)
    split
    · next h3 =>
      exact ⟨_, [], min (zeroRun (b :: bs)) 15, _, eq_zeros_append_drop (by omega),
        codeClass_zeroRun (by omega) (by omega), by simp, rfl⟩
    · split
      · next h2 =>
        exact ⟨_, [], 2, _, eq_zeros_append_drop h2.ge, rfl, by simp, rfl⟩
      · exact ⟨_, [], 1, _, eq_zeros_append_drop h1, rfl, by simp, rfl⟩
  · generalize b :: bs = y at *
    have hlt := dataRun_lt_length hy hz
    have hlits := zero_notMem_take_dataRun y
    have hlen : (y.take (dataRun y)).length = dataRun y := List.length_take_of_le hlt.le
    have block : ∀ k ≤ zeroRun (y.drop (dataRun y)),
        y = y.take (dataRun y) ++ zeros k ++ y.drop (dataRun y + k) := fun k hk => by
      rw [List.append_assoc, ← List.drop_drop, ← eq_zeros_append_drop hk, List.take_append_drop]
    split
    · next h208 =>
      refine ⟨_, y.take 208, 0, _, by simp [zeros], ?_,
        fun h => hlits (List.take_subset_take_left y h208 h), rfl⟩
      rw [List.length_take_of_le (by omega)]
      rfl
    · split
      · next h2 =>
        exact ⟨_, _, 2, _, block 2 h2.2, by rw [hlen]; exact codeClass_pair h2.1, hlits, rfl⟩
      · exact ⟨_, _, 1, _, block 1 (one_le_zeroRun_drop_dataRun hlt),
          by rw [hlen]; exact codeClass_data (by omega), hlits, rfl⟩

/-- What holds of the empty list and is kept by every pass holds of all that the loop codes. -/
theorem encodeLoop_induction {P : List Byte → List Byte → Prop} (nil : P [] [])
    (pass : ∀ (code : Byte) (lits : List Byte) (trailing : Nat) (rest out : List Byte),
      codeClass code = some (lits.length, trailing) → (0 : Byte) ∉ lits →
      EndsInZero (lits ++ zeros trailing ++ rest) → P rest out →
      P (lits ++ zeros trailing ++ rest) (code :: (lits ++ out)))
    {fuel : Nat} {y : List Byte} (hfuel : y.length ≤ fuel) (hz : EndsInZero y) :
    P y (encodeLoop fuel y) := by
  induction fuel generalizing y with
  | zero =>
    obtain rfl := List.length_eq_zero_iff.mp (Nat.le_zero.mp hfuel)
    exact nil
  | succ fuel ih =>
    by_cases hy : y = []
    · subst hy
      exact nil
    · obtain ⟨code, lits, trailing, rest, rfl, hcode, hlits, heq⟩ := encodeLoop_pass fuel hy hz
      rw [heq]
      refine pass code lits trailing rest _ hcode hlits hz (ih ?_ hz.of_append)
      have hcovers := trailing_or_max_of_codeClass hcode
      simp only [zeros, List.length_append, List.length_replicate] at hfuel
      omega

/-! ### The encoder's output -/

/-- The encoder's output holds no 0x00 (R93, R114 (a)). -/
theorem zero_notMem_stuffEncode (x : List Byte) : (0 : Byte) ∉ stuffEncode x := by
  refine encodeLoop_induction (P := fun _ out => (0 : Byte) ∉ out) (by simp) ?_ (by simp)
    (endsInZero_append_zero x)
  intro code lits trailing rest out hcode hlits _ ih
  simp only [List.mem_cons, List.mem_append, not_or]
  exact ⟨(ne_zero_of_codeClass hcode).symm, hlits, ih⟩

/-- The encoder's output is at most `W(|x|)` long (R111): every pass emits at most as many bytes as
it takes, but for one more at each block of 208 literals, which never takes the last byte. -/
theorem length_stuffEncode_le (x : List Byte) :
    (stuffEncode x).length ≤ worstCase x.length := by
  have bound : (stuffEncode x).length ≤ (x ++ [0]).length + ((x ++ [0]).length - 1) / 208 := by
    refine encodeLoop_induction
      (P := fun y out => out.length ≤ y.length + (y.length - 1) / 208) (by simp) ?_ (by simp)
      (endsInZero_append_zero x)
    intro code lits trailing rest out hcode hlits hz ih
    have hcovers := trailing_or_max_of_codeClass hcode
    have hrest : trailing = 0 → lits.length = 208 → 1 ≤ rest.length := by
      rintro rfl h208
      refine List.length_pos_iff.mpr fun hnil => hlits ?_
      have hne : lits ≠ [] := List.ne_nil_of_length_pos (by omega)
      have hlast : lits.getLast hne = 0 :=
        hz _ (by simpa [zeros, hnil] using List.getLast?_eq_some_getLast hne)
      exact hlast ▸ List.getLast_mem hne
    simp only [zeros, List.length_append, List.length_cons, List.length_replicate]
    rcases Nat.eq_zero_or_pos trailing with h0 | h0 <;> omega
  simpa [worstCase, Config.runMax, Nat.add_right_comm] using bound

/-! ### The invariant, unit by unit -/

/-- What the invariant says of the encoder. -/
structure EncInv (p : Params) (u : EncUnit) : Prop where
  count : u.nin.toNat = u.inp.length
  fits : worstCase u.inp.length ≤ p.encCap
  lenCap : u.len.toNat ≤ p.encCap
  outHolds : holdsExactly u.out u.len.toNat
  outNoZero : ∀ c ∈ u.out, c.2 ≠ 0
  lenValid : u.outValid = false → u.len = 0
  openInvalid : u.phase = .opened → u.outValid = false ∧ u.status ≠ .seqErr

/-- What the invariant says of the decoder. -/
structure DecInv (p : Params) (u : DecUnit) : Prop where
  outHolds : holdsExactly u.out (if u.outValid then u.len.toNat else 0)
  lenCap : u.outValid = true → u.len.toNat ≤ p.decCap
  openInvalid : u.phase = .opened → u.outValid = false ∧ u.status = .ok

/-- What the invariant says of the outbound framer. -/
structure TxInv (p : Params) (u : TxUnit) : Prop where
  lenCap : u.len.toNat ≤ p.maxMsg + 1
  payHolds : holdsExactly u.pay (min u.len.toNat p.maxMsg)

/-- What the invariant says of the inbound deframer. -/
structure RxInv (p : Params) (u : RxUnit) : Prop where
  cntCap : u.cnt.toNat < p.rxbufSize
  bufHolds : holdsExactly u.buf u.cnt.toNat
  bufNoZero : ∀ c ∈ u.buf, c.2 ≠ 0

/-- The parameters are legal and fit the registers (R9, R12). -/
structure ParamsInv (p : Params) : Prop where
  legal : p.wf = true
  fit : p.fitsWidths = true

theorem inv_iff {s : State} :
    Inv s ↔ ParamsInv s.params ∧ EncInv s.params s.enc ∧ DecInv s.params s.dec ∧
      TxInv s.params s.tx ∧ RxInv s.params s.rx := by
  constructor
  · intro h
    exact ⟨⟨h.paramsLegal, h.paramsFit⟩,
      ⟨h.encCount, h.encFits, h.encLenCap, h.encOutHolds, h.encOutNoZero, h.encLenValid,
        h.encOpenInvalid⟩,
      ⟨h.decOutHolds, h.decLenCap, h.decOpenInvalid⟩, ⟨h.txLenCap, h.txPayHolds⟩,
      ⟨h.rxCntCap, h.rxBufHolds, h.rxBufNoZero⟩⟩
  · rintro ⟨hp, he, hd, ht, hr⟩
    exact ⟨hp.legal, hp.fit, he.count, he.fits, he.lenCap, he.outHolds, he.outNoZero, he.lenValid,
      he.openInvalid, hd.outHolds, hd.lenCap, hd.openInvalid, ht.lenCap, ht.payHolds, hr.cntCap,
      hr.bufHolds, hr.bufNoZero⟩

theorem Inv.params {s : State} (h : Inv s) : ParamsInv s.params := (inv_iff.mp h).1
theorem Inv.enc {s : State} (h : Inv s) : EncInv s.params s.enc := (inv_iff.mp h).2.1
theorem Inv.dec {s : State} (h : Inv s) : DecInv s.params s.dec := (inv_iff.mp h).2.2.1
theorem Inv.tx {s : State} (h : Inv s) : TxInv s.params s.tx := (inv_iff.mp h).2.2.2.1
theorem Inv.rx {s : State} (h : Inv s) : RxInv s.params s.rx := (inv_iff.mp h).2.2.2.2

/-! ### Writes outside the units, and writes of one unit -/

section
variable {s : State}

@[simp] theorem inv_completeCommand : Inv (completeCommand s) ↔ Inv s := by simp [inv_iff]
@[simp] theorem inv_illegalCommand : Inv (illegalCommand s) ↔ Inv s := by simp [inv_iff]
@[simp] theorem inv_setCks (v : Word) : Inv (s.setCks v) ↔ Inv s := by simp [inv_iff]
@[simp] theorem inv_setScan (sc : Scan) : Inv (s.setScan sc) ↔ Inv s := by simp [inv_iff]
@[simp] theorem inv_setPort (inputs : List Input) : Inv (s.setPort inputs) ↔ Inv s := by
  simp [inv_iff]
@[simp] theorem inv_setTxqFree (n : Nat) : Inv (s.setTxqFree n) ↔ Inv s := by simp [inv_iff]
@[simp] theorem inv_pushTx (frame : List Byte) : Inv (s.pushTx frame) ↔ Inv s := by simp [inv_iff]
@[simp] theorem inv_deliver (body : List Byte) : Inv (s.deliver body) ↔ Inv s := by simp [inv_iff]

theorem Inv.setEnc (h : Inv s) {u : EncUnit} (hu : EncInv s.params u) : Inv (s.setEnc u) :=
  inv_iff.mpr ⟨h.params, hu, h.dec, h.tx, h.rx⟩

theorem Inv.setDec (h : Inv s) {u : DecUnit} (hu : DecInv s.params u) : Inv (s.setDec u) :=
  inv_iff.mpr ⟨h.params, h.enc, hu, h.tx, h.rx⟩

theorem Inv.setTx (h : Inv s) {u : TxUnit} (hu : TxInv s.params u) : Inv (s.setTx u) :=
  inv_iff.mpr ⟨h.params, h.enc, h.dec, hu, h.rx⟩

theorem Inv.setRx (h : Inv s) {u : RxUnit} (hu : RxInv s.params u) : Inv (s.setRx u) :=
  inv_iff.mpr ⟨h.params, h.enc, h.dec, h.tx, hu⟩

end

/-! ### Bounds -/

theorem lt_worstCase (n : Nat) : n < worstCase n :=
  Nat.lt_succ_of_le (Nat.le_add_right n _)

section
variable {p : Params}

theorem ParamsInv.capacities (h : ParamsInv p) :
    worstCase (p.maxMsg + Config.ovh) ≤ p.encCap ∧ 1 ≤ p.decCap ∧ 2 ≤ p.rxbufSize := by
  simpa only [Params.wf, decide_eq_true_eq] using h.legal

theorem ParamsInv.widths (h : ParamsInv p) :
    p.maxMsg + 1 < 65536 ∧ p.encCap < 65536 ∧ p.decCap < 4294967295 ∧ p.rxbufSize < 65536 := by
  simpa only [Params.fitsWidths, decide_eq_true_eq] using h.fit

/-! ### Cleared units -/

theorem encInv_of_cleared (hp : ParamsInv p) {u : EncUnit} (hnin : u.nin = 0) (hinp : u.inp = [])
    (hlen : u.len = 0) (hout : u.out = []) (hvalid : u.outValid = false)
    (hstatus : u.status = .ok) : EncInv p u where
  count := by rw [hnin, hinp]; rfl
  fits := by
    have hcap := (lt_worstCase (p.maxMsg + Config.ovh)).trans_le hp.capacities.1
    rw [hinp]
    exact Nat.one_le_of_lt hcap
  lenCap := by rw [hlen]; exact Nat.zero_le _
  outHolds := by rw [hout, hlen]; exact holdsExactly_nil
  outNoZero := by simp [hout]
  lenValid := fun _ => hlen
  openInvalid := fun _ => ⟨hvalid, by simp [hstatus]⟩

theorem decInv_of_cleared {u : DecUnit} (hout : u.out = []) (hvalid : u.outValid = false)
    (hstatus : u.phase = .opened → u.status = .ok) : DecInv p u where
  outHolds := by rw [hout, hvalid]; exact holdsExactly_nil
  lenCap := fun hv => by simp [hvalid] at hv
  openInvalid := fun ho => ⟨hvalid, hstatus ho⟩

theorem txInv_of_cleared {u : TxUnit} (hlen : u.len = 0) (hpay : u.pay = []) : TxInv p u where
  lenCap := by rw [hlen]; exact Nat.zero_le _
  payHolds := by
    rw [hlen, hpay]
    exact (Nat.zero_min p.maxMsg).symm ▸ holdsExactly_nil

theorem rxInv_of_cleared (hp : ParamsInv p) {u : RxUnit} (hcnt : u.cnt = 0) (hbuf : u.buf = []) :
    RxInv p u where
  cntCap := by
    rw [hcnt]
    exact Nat.zero_lt_of_lt hp.capacities.2.2
  bufHolds := by rw [hcnt, hbuf]; exact holdsExactly_nil
  bufNoZero := by simp [hbuf]

/-! ### The encoder keeps its part -/

theorem encStartUnit_keeps_inv (hp : ParamsInv p) (u : EncUnit) : EncInv p (encStartUnit u) :=
  encInv_of_cleared hp rfl rfl rfl rfl rfl rfl

theorem encFeedUnit_keeps_inv (hp : ParamsInv p) (b : Byte) {u : EncUnit} (h : EncInv p u) :
    EncInv p (encFeedUnit p b u) := by
  obtain ⟨hph, e⟩ | ⟨-, -, e⟩ | ⟨hph, -, -, e⟩ | ⟨hph, -, hfit, e⟩ := encFeedUnit_cases p b u <;>
    rw [e]
  · exact { h with openInvalid := fun ho => by simp [hph] at ho }
  · exact h
  · exact { h with openInvalid := fun _ => ⟨(h.openInvalid hph).1, by simp⟩ }
  · have hlen : (u.inp ++ [b]).length = u.nin.toNat + 1 := by simp [h.count]
    have hnin : u.nin.toNat + 1 < 65536 :=
      ((lt_worstCase _).trans_le hfit).trans hp.widths.2.1
    exact { h with
      count := by rw [hlen]; exact BitVec.toNat_add_of_lt hnin
      fits := by rw [hlen]; exact hfit }

theorem encFinishUnit_keeps_inv (hp : ParamsInv p) {u : EncUnit} (h : EncInv p u) :
    EncInv p (encFinishUnit p u) := by
  obtain ⟨hph, e⟩ | ⟨-, -, e⟩ | ⟨-, -, e⟩ := encFinishUnit_cases p u <;> rw [e]
  · exact { h with openInvalid := fun ho => by simp [hph] at ho }
  · exact { h with
      lenCap := Nat.zero_le _, outHolds := rfl, outNoZero := by simp
      lenValid := fun _ => rfl, openInvalid := fun ho => by simp at ho }
  · have hcap : (stuffEncode u.inp).length ≤ p.encCap :=
      (length_stuffEncode_le u.inp).trans h.fits
    have hlen : (BitVec.ofNat 16 (stuffEncode u.inp).length).toNat =
        (stuffEncode u.inp).length := by
      have hwidths := hp.widths
      rw [BitVec.toNat_ofNat]
      omega
    exact { h with
      lenCap := by simpa only [hlen] using hcap
      outHolds := by simpa only [hlen] using holdsExactly_bufWriteAll hcap
      outNoZero := fun c hc h0 => zero_notMem_stuffEncode u.inp (h0 ▸ mem_bufWriteAll hcap hc)
      lenValid := fun hv => by simp at hv
      openInvalid := fun ho => by simp at ho }

/-! ### The decoder keeps its part -/

theorem decStartUnit_keeps_inv (p : Params) (u : DecUnit) : DecInv p (decStartUnit u) :=
  decInv_of_cleared rfl rfl fun _ => rfl

theorem decFeedUnit_keeps_inv (b : Byte) {u : DecUnit} (h : DecInv p u) :
    DecInv p (decFeedUnit b u) := by
  unfold decFeedUnit
  split
  · next hph => exact { h with openInvalid := fun ho => by simp [hph] at ho }
  · exact { h with }

theorem decFinishUnit_keeps_inv (hp : ParamsInv p) {u : DecUnit} (h : DecInv p u) :
    DecInv p (decFinishUnit p u) := by
  obtain ⟨hph, e⟩ | ⟨-, -, e⟩ | ⟨d, -, -, -, e⟩ | ⟨d, -, -, hcap, e⟩ := decFinishUnit_cases p u <;>
    rw [e]
  · exact { h with openInvalid := fun ho => by simp [hph] at ho }
  · exact decInv_of_cleared rfl rfl fun ho => by simp at ho
  · exact decInv_of_cleared rfl rfl fun ho => by simp at ho
  · have hlen : (saturate32 d.length).toNat = d.length := by
      have hwidths := hp.widths
      exact toNat_saturate32 (by omega)
    exact
      { outHolds := by simpa only [hlen, if_true] using holdsExactly_bufWriteAll hcap
        lenCap := fun _ => by simpa only [hlen] using hcap
        openInvalid := fun ho => by simp at ho }

/-! ### The framers keep their parts -/

theorem txBeginUnit_keeps_inv (p : Params) (u : TxUnit) : TxInv p (txBeginUnit u) :=
  txInv_of_cleared rfl rfl

theorem txPushUnit_keeps_inv (hp : ParamsInv p) (b : Byte) {u : TxUnit} (h : TxInv p u) :
    TxInv p (txPushUnit p b u) := by
  have hwidths := hp.widths
  obtain ⟨hlt, e⟩ | ⟨heq, e⟩ | ⟨-, e⟩ := txPushUnit_cases p b u <;> rw [e]
  · have hlen : (u.len + 1).toNat = u.len.toNat + 1 :=
      BitVec.toNat_add_of_lt (show u.len.toNat + 1 < 65536 by omega)
    have hpay := h.payHolds
    rw [min_eq_left hlt.le] at hpay
    refine ⟨by rw [hlen]; omega, ?_⟩
    rw [hlen, min_eq_left (by omega)]
    exact holdsExactly_bufWrite b hlt hpay
  · have hlen : (BitVec.ofNat 16 (p.maxMsg + 1)).toNat = p.maxMsg + 1 := by
      rw [BitVec.toNat_ofNat]
      omega
    have hpay := h.payHolds
    rw [heq, min_self] at hpay
    refine ⟨hlen.le, ?_⟩
    rw [hlen, min_eq_right (by omega)]
    exact hpay
  · exact h

theorem sendStaged_keeps_inv {s : State} (h : Inv s) : Inv (sendStaged s) := by
  have htx := h.tx
  obtain ⟨-, e⟩ | ⟨-, -, e⟩ | ⟨-, -, e⟩ := sendStaged_cases s <;> rw [e]
  · exact h.setTx ⟨htx.lenCap, htx.payHolds⟩
  · exact h.setTx ⟨htx.lenCap, htx.payHolds⟩
  · exact (inv_pushTx _).mpr (h.setTx ⟨htx.lenCap, htx.payHolds⟩)

theorem accumulate_keeps_inv (hp : ParamsInv p) {b : Byte} (hb : b ≠ 0) {u : RxUnit}
    (h : RxInv p u) : RxInv p (accumulate p b u) := by
  obtain ⟨-, e⟩ | ⟨hne, e⟩ := accumulate_cases p b u <;> rw [e]
  · exact rxInv_of_cleared hp rfl rfl
  · have hwidths := hp.widths
    have hcap := h.cntCap
    have hcnt : (u.cnt + 1).toNat = u.cnt.toNat + 1 :=
      BitVec.toNat_add_of_lt (show u.cnt.toNat + 1 < 65536 by omega)
    refine ⟨?_, ?_, ?_⟩
    · show (u.cnt + 1).toNat < p.rxbufSize
      omega
    · rw [hcnt]
      exact holdsExactly_bufWrite b hcap h.bufHolds
    · intro c hc
      rw [bufWrite, if_pos hcap, memWrite_next b h.bufHolds, List.mem_append,
        List.mem_singleton] at hc
      rcases hc with hc | rfl
      · exact h.bufNoZero c hc
      · exact hb

theorem completeFrame_keeps_inv {s : State} (h : Inv s) : Inv (completeFrame s) := by
  have hemptied {u : RxUnit} (hcnt : u.cnt = 0) (hbuf : u.buf = []) : Inv (s.setRx u) :=
    h.setRx (rxInv_of_cleared h.params hcnt hbuf)
  obtain ⟨-, e⟩ | ⟨-, -, -, -, e⟩ | ⟨d, -, -, -, e⟩ := completeFrame_cases s <;> rw [e]
  · exact hemptied rfl rfl
  · exact hemptied rfl rfl
  · exact (inv_deliver _).mpr (hemptied rfl rfl)

theorem ingest_keeps_inv (b : Byte) {s : State} (h : Inv s) : Inv (ingest b s) := by
  unfold ingest
  split
  · exact completeFrame_keeps_inv h
  · next hb => exact h.setRx (accumulate_keeps_inv h.params hb h.rx)

end

/-! ### Every step keeps the invariant -/

theorem resetEvent_keeps_inv {s : State} (h : Inv s) : Inv (resetEvent s) :=
  inv_iff.mpr ⟨h.params, encInv_of_cleared h.params rfl rfl rfl rfl rfl rfl,
    decInv_of_cleared rfl rfl fun _ => rfl, txInv_of_cleared rfl rfl,
    rxInv_of_cleared h.params rfl rfl⟩

/-- A command keeps the invariant when its unit keeps its part; a code byte acts on the decode loop,
of which the invariant says nothing. -/
theorem exec_keeps_inv (i : Instr) {s t : State} (h : Inv s) (he : exec i s = .next t) : Inv t := by
  have command {u : State} (hu : Inv u) : Inv (completeCommand u) := inv_completeCommand.mpr hu
  cases i <;> cases he
  case nop => exact command h
  case encStart => exact command (h.setEnc (encStartUnit_keeps_inv h.params s.enc))
  case encFeed imm => exact command (h.setEnc (encFeedUnit_keeps_inv h.params imm h.enc))
  case encFinish => exact command (h.setEnc (encFinishUnit_keeps_inv h.params h.enc))
  case decStart => exact command (h.setDec (decStartUnit_keeps_inv s.params s.dec))
  case decFeed imm => exact command (h.setDec (decFeedUnit_keeps_inv imm h.dec))
  case decFinish => exact command (h.setDec (decFinishUnit_keeps_inv h.params h.dec))
  case cksInit => exact command ((inv_setCks _).mpr h)
  case cksFeed imm => exact command ((inv_setCks _).mpr h)
  case txBegin => exact command (h.setTx (txBeginUnit_keeps_inv s.params s.tx))
  case txPush imm => exact command (h.setTx (txPushUnit_keeps_inv h.params imm h.tx))
  case txSend => exact command (sendStaged_keeps_inv h)
  case rxByte imm => exact command (ingest_keeps_inv imm h)
  all_goals exact (inv_setScan _).mpr h

/-- Settles O54, by the five things a step can meet. -/
theorem everyStepKeepsTheInvariant : Obligations.EveryStepKeepsTheInvariant := by
  intro s t h hstep
  obtain ⟨c, rest, -, -, hf⟩ | ⟨-, -, hf⟩ | ⟨inputs, -, -, hf⟩ | ⟨w, free, inputs, i, -, -, -, hf⟩ |
    ⟨w, free, inputs, r, -, -, -, hf⟩ := fetch_cases s
  · rw [step_of_fetch_run hf] at hstep
    exact exec_keeps_inv _ ((inv_setScan _).mpr h) hstep
  · rw [step_of_fetch_idle hf] at hstep
    cases hstep
    exact h
  · rw [step_of_fetch_reset hf] at hstep
    cases hstep
    exact resetEvent_keeps_inv ((inv_setPort _).mpr h)
  · rw [step_of_fetch_run hf] at hstep
    exact exec_keeps_inv i (by simpa using h) hstep
  · rw [step_of_fetch_illegal hf] at hstep
    cases hstep
    simpa using h

end Sys2Proof.Machine

/-! Proofs of the statements on 20_memory.md: the fields of a built frame (R63), the windows of the
output buffers (R61), the invariant after reset (R270), and the idempotent commands (R67). -/

namespace Sys2Proof.Machine

/-! ### Sequences of blocks (R89) -/

@[simp] theorem blockBytes_nil : blockBytes [] = [] := rfl

@[simp] theorem blockBytes_cons (b : Byte × List Byte) (bs : List (Byte × List Byte)) :
    blockBytes (b :: bs) = b.1 :: (b.2 ++ blockBytes bs) := rfl

@[simp] theorem blockExpansion_nil : blockExpansion [] = [] := rfl

@[simp] theorem blockExpansion_cons (b : Byte × List Byte) (bs : List (Byte × List Byte)) :
    blockExpansion (b :: bs) = b.2 ++ zeros (blockZeros b) ++ blockExpansion bs := rfl

theorem blockZeros_of_codeClass {b : Byte × List Byte} {literals trailing : Nat}
    (h : codeClass b.1 = some (literals, trailing)) : blockZeros b = trailing := by
  simp [blockZeros, h]

theorem length_le_length_blockBytes (bs : List (Byte × List Byte)) :
    bs.length ≤ (blockBytes bs).length := by
  induction bs with
  | nil => exact Nat.le_refl 0
  | cons b bs ih =>
    simp only [blockBytes_cons, List.length_cons, List.length_append]
    omega

/-! ### Decoding a sequence of well-formed blocks -/

/-- One pass of the decode loop takes one well-formed block (R140). -/
theorem scanPass_goodBlock {b : Byte × List Byte} (hb : goodBlock b) (tail out : List Byte)
    (lastZ : Nat) :
    scanPass { rest := b.1 :: (b.2 ++ tail), out := out, lastZ := lastZ, format := false } =
      { rest := tail, out := out ++ (b.2 ++ zeros (blockZeros b)), lastZ := blockZeros b
        format := false } := by
  obtain ⟨trailing, hclass, hlits⟩ := hb
  rw [blockZeros_of_codeClass hclass, scanPass_cons rfl, hclass]
  dsimp only [scanBlock]
  rw [if_neg (by simp), List.take_left, List.drop_left, if_neg hlits, List.append_assoc]

theorem scanRun_cons (fuel : Nat) (c : Byte) (rest out : List Byte) (lastZ : Nat) :
    scanRun (fuel + 1) { rest := c :: rest, out := out, lastZ := lastZ, format := false } =
      scanRun fuel
        (scanPass { rest := c :: rest, out := out, lastZ := lastZ, format := false }) := rfl

/-- The decode loop takes well-formed blocks one a pass, whatever follows them. -/
theorem scanRun_goodBlocks {bs : List (Byte × List Byte)} (hbs : ∀ b ∈ bs, goodBlock b)
    (fuel : Nat) (tail out : List Byte) (lastZ : Nat) :
    scanRun (bs.length + fuel)
        { rest := blockBytes bs ++ tail, out := out, lastZ := lastZ, format := false } =
      scanRun fuel
        { rest := tail, out := out ++ blockExpansion bs
          lastZ := (bs.getLast?.map blockZeros).getD lastZ, format := false } := by
  induction bs generalizing out lastZ with
  | nil => simp
  | cons b bs ih =>
    obtain ⟨hb, hbs⟩ := List.forall_mem_cons.mp hbs
    rw [List.length_cons, Nat.add_right_comm, blockBytes_cons, List.cons_append, List.append_assoc,
      scanRun_cons, scanPass_goodBlock hb, ih hbs, blockExpansion_cons, List.append_assoc out,
      List.getLast?_cons]
    cases bs.getLast? <;> rfl

/-- A sequence of well-formed blocks decodes to what it stands for, without its last byte when its
last block carries zeros (R142). -/
theorem stuffDecode_blockBytes {bs : List (Byte × List Byte)} (hbs : ∀ b ∈ bs, goodBlock b) :
    stuffDecode (blockBytes bs) =
      .ok (if 1 ≤ lastZeros bs then (blockExpansion bs).dropLast else blockExpansion bs) := by
  obtain ⟨fuel, hfuel⟩ := Nat.exists_eq_add_of_le (length_le_length_blockBytes bs)
  have hrun := (scanRun_goodBlocks hbs fuel [] [] 0).trans (scanRun_of_not_active rfl fuel)
  rw [List.append_nil, List.nil_append, ← hfuel] at hrun
  rw [stuffDecode, scanStart, hrun, scanResult, if_neg Bool.false_ne_true, apply_ite Decoded.ok]
  rfl

/-! ### What the encoder emits are well-formed blocks -/

theorem EndsInZero.zero_mem {y : List Byte} (h : EndsInZero y) (hy : y ≠ []) : (0 : Byte) ∈ y :=
  h (y.getLast hy) (List.getLast?_eq_some_getLast hy) ▸ List.getLast_mem hy

/-- A block of no zeros never takes the last byte of a list that ends in a zero. -/
theorem one_le_trailing_of_last_block {code : Byte} {lits : List Byte} {trailing : Nat}
    (hclass : codeClass code = some (lits.length, trailing)) (hlits : (0 : Byte) ∉ lits)
    (hz : EndsInZero (lits ++ zeros trailing)) : 1 ≤ trailing := by
  refine (trailing_or_max_of_codeClass hclass).elim id fun h208 => ?_
  by_contra h0
  obtain rfl : trailing = 0 := by omega
  rw [zeros, List.replicate_zero, List.append_nil] at hz
  exact hlits (hz.zero_mem (List.ne_nil_of_length_pos (by omega)))

/-- The list `out` is a sequence of well-formed blocks that stands for `y`, the last of them with
zeros. -/
def IsBlocksFor (y out : List Byte) : Prop :=
  ∃ bs, (∀ b ∈ bs, goodBlock b) ∧ out = blockBytes bs ∧ y = blockExpansion bs ∧
    ∀ b ∈ bs.getLast?, 1 ≤ blockZeros b

/-- The loop of R110 emits blocks for the bytes it codes, one a pass. -/
theorem isBlocksFor_encodeLoop {fuel : Nat} {y : List Byte} (hfuel : y.length ≤ fuel)
    (hz : EndsInZero y) : IsBlocksFor y (encodeLoop fuel y) := by
  refine encodeLoop_induction (P := IsBlocksFor) ⟨[], by simp⟩ ?_ hfuel hz
  rintro code lits trailing _ _ hclass hlits hz ⟨bs, hbs, rfl, rfl, hlast⟩
  have htrailing : blockZeros (code, lits) = trailing := blockZeros_of_codeClass hclass
  refine ⟨(code, lits) :: bs, List.forall_mem_cons.mpr ⟨⟨trailing, hclass, hlits⟩, hbs⟩, rfl,
    by rw [blockExpansion_cons, htrailing], ?_⟩
  rcases List.eq_nil_or_concat bs with rfl | ⟨init, last, rfl⟩
  · rw [blockExpansion_nil, List.append_nil] at hz
    simpa [htrailing] using one_le_trailing_of_last_block hclass hlits hz
  · simpa [List.getLast?_cons] using hlast

/-- The encoding of `x` is a sequence of well-formed blocks that stands for `x` and the phantom zero
(R112), which its last block carries. -/
theorem stuffEncode_eq_blockBytes (x : List Byte) :
    ∃ bs, (∀ b ∈ bs, goodBlock b) ∧ stuffEncode x = blockBytes bs ∧ x ++ [0] = blockExpansion bs ∧
      1 ≤ lastZeros bs := by
  obtain ⟨bs, hbs, hbytes, hexp, hlast⟩ :=
    isBlocksFor_encodeLoop (fuel := x.length + 1) (by simp) (endsInZero_append_zero x)
  refine ⟨bs, hbs, hbytes, hexp, ?_⟩
  have hne : bs ≠ [] := by
    rintro rfl
    simp at hexp
  have hget := List.getLast?_eq_some_getLast hne
  rw [lastZeros, hget]
  exact hlast _ hget

/-- Decoding an encoding gives the input back (R114 (c)). -/
theorem stuffDecode_stuffEncode (x : List Byte) : stuffDecode (stuffEncode x) = .ok x := by
  obtain ⟨bs, hbs, hbytes, hexp, hlast⟩ := stuffEncode_eq_blockBytes x
  rw [hbytes, stuffDecode_blockBytes hbs, if_pos hlast, ← hexp, List.dropLast_concat]

/-- Settles O46: the body is the encoding of the wire frame. -/
theorem builtFrameCarriesTheWireFrame : Obligations.BuiltFrameCarriesTheWireFrame := by
  intro alg payload seq
  exact ⟨stuffEncode (wireFrame alg payload seq), rfl, zero_notMem_stuffEncode _,
    stuffDecode_stuffEncode (wireFrame alg payload seq)⟩

/-! ### The windows of the output buffers (R61) -/

theorem isSome_memRead_iff {m : Memory} {i : Nat} :
    (memRead m i).isSome = true ↔ i ∈ m.map Prod.fst := by
  induction m with
  | nil => simp
  | cons c m ih =>
    obtain ⟨k, v⟩ := c
    by_cases hk : k = i
    · simp [memRead, hk]
    · simp [memRead, hk, ih, Ne.symm hk]

theorem isSome_memRead_of_holdsExactly {m : Memory} {n : Nat} (h : holdsExactly m n) (i : Nat) :
    (memRead m i).isSome = true ↔ i < n := by
  rw [isSome_memRead_iff, h, List.mem_range]

/-- A read through a window has a value exactly inside it, when the buffer is written exactly
there. -/
theorem isSome_windowRead {m : Memory} {valid : Bool} {len cap : Nat}
    (hcap : valid = true → len ≤ cap) (hm : valid = true → holdsExactly m len) (i : Nat) :
    (if valid = true ∧ i < len ∧ i < cap then memRead m i else none).isSome = true ↔
      valid = true ∧ i < len := by
  split
  · next hwindow =>
    obtain ⟨hvalid, hlen, -⟩ := hwindow
    rw [isSome_memRead_of_holdsExactly (hm hvalid)]
    exact ⟨fun _ => ⟨hvalid, hlen⟩, fun _ => hlen⟩
  · next hwindow =>
    refine ⟨fun h => by simp at h, fun ⟨hvalid, hlen⟩ => ?_⟩
    exact absurd ⟨hvalid, hlen, hlen.trans_le (hcap hvalid)⟩ hwindow

/-- Settles O15: the invariant has each output buffer written exactly inside its window. -/
theorem bufferReadsHaveAValueExactlyInTheWindow :
    Obligations.BufferReadsHaveAValueExactlyInTheWindow := by
  intro s h i
  have hdec : s.dec.outValid = true → holdsExactly s.dec.out s.dec.len.toNat := fun hvalid => by
    simpa only [hvalid, if_true] using h.decOutHolds
  exact ⟨isSome_windowRead (fun _ => h.encLenCap) (fun _ => h.encOutHolds) i,
    isSome_windowRead h.decLenCap hdec i, rfl, rfl⟩

/-! ### Reset, and repeated commands -/

theorem paramsInv_default : ParamsInv Params.default where
  legal := by decide
  fit := by decide

/-- Settles O53: the default parameters are legal, and every unit is cleared. -/
theorem resetMeetsTheInvariant : Obligations.ResetMeetsTheInvariant :=
  inv_iff.mpr ⟨paramsInv_default, encInv_of_cleared paramsInv_default rfl rfl rfl rfl rfl rfl,
    decInv_of_cleared rfl rfl fun _ => rfl, txInv_of_cleared rfl rfl,
    rxInv_of_cleared paramsInv_default rfl rfl⟩

/-- Settles O60: each of the five writes values that its own writes do not change. -/
theorem repeatingAnIdempotentCommandChangesNothing :
    Obligations.RepeatingAnIdempotentCommandChangesNothing := by
  intro i s hi
  simp only [List.mem_cons, List.not_mem_nil, or_false] at hi
  rcases hi with rfl | rfl | rfl | rfl | rfl
  · exact ⟨completeCommand s, rfl, rfl⟩
  · exact ⟨completeCommand (s.setCks s.params.cksAlg.initVal), rfl, rfl⟩
  · exact ⟨completeCommand (s.setEnc (encStartUnit s.enc)), rfl, rfl⟩
  · exact ⟨completeCommand (s.setDec (decStartUnit s.dec)), rfl, rfl⟩
  · exact ⟨completeCommand (s.setTx (txBeginUnit s.tx)), rfl, rfl⟩

end Sys2Proof.Machine

/-! Proofs of the statements on 30_encoding.md: command words (R80 to R85), code bytes (R89 to R92),
and the decode loop over them (R140 to R142). -/

namespace Sys2Proof.Machine

/-! ### Command words (R80 to R84) -/

theorem decodeCommand_commandWord (op imm : Byte) :
    decodeCommand (commandWord op imm) = decodeFields op imm := by
  rw [decodeCommand, Laws.opField_commandWord, Laws.immField_commandWord]

theorem toNat_commandWord_mod (op imm : Byte) :
    (commandWord op imm).toNat % 256 = imm.toNat := by
  rw [← congrArg BitVec.toNat (Laws.immField_commandWord op imm), immField,
    BitVec.extractLsb'_toNat, Nat.shiftRight_zero]

theorem opField_eq_ofNat (w : Word) : opField w = BitVec.ofNat 8 (w.toNat / 256) := by
  apply BitVec.eq_of_toNat_eq
  rw [opField, BitVec.extractLsb'_toNat, Nat.shiftRight_eq_div_pow, BitVec.toNat_ofNat]

/-- An opcode of R82's table selects its row, whatever the immediate. -/
theorem decodeFields_of_mem_opcodeMap {op : Byte} {m : String} (h : (op, m) ∈ opcodeMap)
    (imm : Byte) :
    ∃ i : Instr, decodeFields op imm = .ok i ∧ mnemonicOf i = m ∧ i.wellFormed = true := by
  fin_cases h <;> exact ⟨_, rfl, rfl, rfl⟩

/-- An opcode that selects a row stands in R82's table with that row's mnemonic; every other one is
rejected (R83). -/
theorem decodeFields_cases (op imm : Byte) :
    (∃ i, decodeFields op imm = .ok i ∧ (op, mnemonicOf i) ∈ opcodeMap) ∨
      decodeFields op imm = .error (.unassignedOpcode op) := by
  unfold decodeFields
  split
  case h_14 => exact .inr rfl
  all_goals exact .inl ⟨_, rfl, by simp [mnemonicOf, opcodeMap]⟩

/-- Only the five data commands depend on the immediate (R81). -/
theorem decodeFields_ignores_imm {op : Byte} (h : op ∉ [0x11, 0x21, 0x31, 0x41, 0x50])
    (imm imm' : Byte) : decodeFields op imm = decodeFields op imm' := by
  unfold decodeFields
  split
  case h_3 | h_6 | h_9 | h_11 | h_13 => simp at h
  case h_14 => simp
  all_goals rfl

/-- Settles O3: the upper byte is the opcode, and one that selects a row stands in the table. -/
theorem commandDecodingFollowsTheOpcodeMap : Obligations.CommandDecodingFollowsTheOpcodeMap := by
  intro w
  rw [decodeCommand, ← opField_eq_ofNat]
  refine ⟨fun m hm => decodeFields_of_mem_opcodeMap hm _, fun hno => ?_⟩
  obtain ⟨i, -, hmem⟩ | herr := decodeFields_cases (opField w) (immField w)
  · exact absurd hmem (hno _)
  · exact herr

/-- Settles O4: by the two fields of the word, and for the encoder by the instruction. -/
theorem onlyDataCommandsUseTheImmediate : Obligations.OnlyDataCommandsUseTheImmediate := by
  refine ⟨fun imm => ?_, fun op imm hop => ?_, fun i w henc hw => ?_⟩
  · simp only [decodeCommand_commandWord]
    exact ⟨rfl, rfl, rfl, rfl, rfl⟩
  · rw [decodeCommand_commandWord, decodeCommand_commandWord,
      decodeFields_ignores_imm hop imm 0x00]
  · cases i with
    | encFeed b | decFeed b | cksFeed b | txPush b | rxByte b => exact ⟨b, by simp⟩
    | codeIllegal | codeDataZ1 _ | codeDataMax | codeReserved | codeZrun _ | codeDataZ2 _ =>
      nomatch henc
    | _ =>
      obtain rfl := Encoded.command.inj henc
      exact absurd (toNat_commandWord_mod _ 0x00) hw

/-- Settles O5, by evaluation of the decoder on each word. -/
theorem sampleWordsDecodeAsTheSpecPrintsThem :
    Obligations.SampleWordsDecodeAsTheSpecPrintsThem :=
  ⟨rfl, rfl, rfl, rfl, rfl, rfl, rfl, rfl, rfl, rfl, rfl, rfl, rfl, rfl⟩

/-! ### Pseudo-instructions (R85) -/

/-- One feed command a byte, in order (R85). -/
theorem map_decodeCommand_feedWords {op : Byte} {feed : Byte → Instr}
    (h : ∀ b, decodeFields op b = .ok (feed b)) (bytes : List Byte) :
    (feedWords op bytes).map decodeCommand = bytes.map fun b => .ok (feed b) := by
  rw [feedWords, List.map_map]
  exact List.map_congr_left fun b _ => (decodeCommand_commandWord op b).trans (h b)

/-- Feed commands between a start and a finish command (R85). -/
theorem map_decodeCommand_bracketed {start op finish : Byte} {first last : Instr}
    {feed : Byte → Instr} (hfirst : decodeFields start 0x00 = .ok first)
    (h : ∀ b, decodeFields op b = .ok (feed b)) (hlast : decodeFields finish 0x00 = .ok last)
    (bytes : List Byte) :
    (commandWord start 0x00 :: (feedWords op bytes ++ [commandWord finish 0x00])).map
        decodeCommand =
      (first :: (bytes.map feed ++ [last])).map .ok := by
  rw [List.map_cons, List.map_append, List.map_cons, List.map_nil, map_decodeCommand_feedWords h,
    decodeCommand_commandWord, decodeCommand_commandWord, hfirst, hlast, List.map_cons,
    List.map_append, List.map_map]
  rfl

/-- Settles O6: five lists of feeds, and three between a start and a finish. -/
theorem pseudoInstructionsExpandInOrder : Obligations.PseudoInstructionsExpandInOrder := by
  intro bytes
  exact ⟨map_decodeCommand_feedWords (fun _ => rfl) bytes,
    map_decodeCommand_feedWords (fun _ => rfl) bytes,
    map_decodeCommand_feedWords (fun _ => rfl) bytes,
    map_decodeCommand_feedWords (fun _ => rfl) bytes,
    map_decodeCommand_feedWords (fun _ => rfl) bytes,
    map_decodeCommand_bracketed rfl (fun _ => rfl) rfl bytes,
    map_decodeCommand_bracketed rfl (fun _ => rfl) rfl bytes,
    map_decodeCommand_bracketed rfl (fun _ => rfl) rfl bytes⟩

/-! ### Code bytes (R90, R91) -/

theorem decodeCodeByte_codeByteOf {n : Nat} (h : n < 256) :
    decodeCodeByte (codeByteOf n) =
      if n = 0x00 then .codeIllegal
      else if n ≤ 0xD0 then .codeDataZ1 (n - 1)
      else if n = 0xD1 then .codeDataMax
      else if n = 0xD2 then .codeReserved
      else if n ≤ 0xDF then .codeZrun (n - 0xD0)
      else .codeDataZ2 (n - 0xE0) := by
  rw [decodeCodeByte, toNat_codeByteOf h]

theorem decodeCodeByte_data {n : Nat} (h : n ≤ 207) :
    decodeCodeByte (codeByteOf (n + 1)) = .codeDataZ1 n := by
  rw [decodeCodeByte_codeByteOf (by omega), if_neg (by omega), if_pos (by omega),
    Nat.add_sub_cancel]

theorem decodeCodeByte_zeroRun {m : Nat} (h3 : 3 ≤ m) (h15 : m ≤ 15) :
    decodeCodeByte (codeByteOf (0xD0 + m)) = .codeZrun m := by
  rw [decodeCodeByte_codeByteOf (by omega), if_neg (by omega), if_neg (by omega),
    if_neg (by omega), if_neg (by omega), if_pos (by omega), Nat.add_sub_cancel_left]

theorem decodeCodeByte_pair {n : Nat} (h : n ≤ 31) :
    decodeCodeByte (codeByteOf (0xE0 + n)) = .codeDataZ2 n := by
  rw [decodeCodeByte_codeByteOf (by omega), if_neg (by omega), if_neg (by omega),
    if_neg (by omega), if_neg (by omega), if_neg (by omega), Nat.add_sub_cancel_left]

/-- The rows of R90's table cover every byte. -/
theorem codeByte_cases (c : Byte) :
    c = 0x00 ∨ (∃ n ≤ 207, c = codeByteOf (n + 1)) ∨ c = 0xD1 ∨ c = 0xD2 ∨
      (∃ m, 3 ≤ m ∧ m ≤ 15 ∧ c = codeByteOf (0xD0 + m)) ∨ ∃ n ≤ 31, c = codeByteOf (0xE0 + n) := by
  obtain ⟨k, hk, rfl⟩ : ∃ k < 256, c = codeByteOf k := ⟨c.toNat, c.isLt, by simp [codeByteOf]⟩
  obtain rfl | ⟨h1, hdata⟩ | rfl | rfl | ⟨h3, hrun⟩ | hpair :
      k = 0x00 ∨ (0x01 ≤ k ∧ k ≤ 0xD0) ∨ k = 0xD1 ∨ k = 0xD2 ∨ (0xD3 ≤ k ∧ k ≤ 0xDF) ∨
        0xE0 ≤ k := by
    omega
  · exact .inl rfl
  · exact .inr (.inl ⟨k - 1, by omega, by rw [Nat.sub_add_cancel h1]⟩)
  · exact .inr (.inr (.inl rfl))
  · exact .inr (.inr (.inr (.inl rfl)))
  · exact .inr (.inr (.inr (.inr (.inl
      ⟨k - 0xD0, by omega, by omega, by rw [Nat.add_sub_cancel' (by omega)]⟩))))
  · exact .inr (.inr (.inr (.inr (.inr
      ⟨k - 0xE0, by omega, by rw [Nat.add_sub_cancel' hpair]⟩))))

/-- Settles O1: a command word by its two fields, a code byte by its row of R90. -/
theorem decodingAnEncodedInstructionGivesItBack :
    Obligations.DecodingAnEncodedInstructionGivesItBack := by
  intro i h
  cases i with
  | codeIllegal | codeDataMax | codeReserved => rfl
  | codeDataZ1 literals => exact congrArg Except.ok (decodeCodeByte_data (of_decide_eq_true h))
  | codeZrun zeros =>
    obtain ⟨h3, h15⟩ := of_decide_eq_true h
    exact congrArg Except.ok (decodeCodeByte_zeroRun h3 h15)
  | codeDataZ2 literals => exact congrArg Except.ok (decodeCodeByte_pair (of_decide_eq_true h))
  | _ => exact decodeCommand_commandWord _ _

/-- Settles O2, by the rows of R90. -/
theorem everyCodeByteHasOneClass : Obligations.EveryCodeByteHasOneClass := by
  intro c
  rcases codeByte_cases c with rfl | ⟨n, hn, rfl⟩ | rfl | rfl | ⟨m, h3, h15, rfl⟩ | ⟨n, hn, rfl⟩
  · exact ⟨rfl, rfl⟩
  · rw [decodeCodeByte_data hn]
    exact ⟨decide_eq_true hn, rfl⟩
  · exact ⟨rfl, rfl⟩
  · exact ⟨rfl, rfl⟩
  · rw [decodeCodeByte_zeroRun h3 h15]
    exact ⟨decide_eq_true ⟨h3, h15⟩, rfl⟩
  · rw [decodeCodeByte_pair hn]
    exact ⟨decide_eq_true hn, rfl⟩

/-- Settles O21, by the rows of R90: both functions are known on each. -/
theorem decodedClassesCarryTheCountsOfCodeClass :
    Obligations.DecodedClassesCarryTheCountsOfCodeClass := by
  intro c
  rcases codeByte_cases c with rfl | ⟨n, hn, rfl⟩ | rfl | rfl | ⟨m, h3, h15, rfl⟩ | ⟨n, hn, rfl⟩
  · rfl
  · rw [decodeCodeByte_data hn, codeClass_data hn]
  · rfl
  · rfl
  · rw [decodeCodeByte_zeroRun h3 h15, codeClass_zeroRun h3 h15]
  · rw [decodeCodeByte_pair hn, codeClass_pair hn]

/-! ### One pass of the decode loop -/

@[simp] theorem scanResult_scanFormat (sc : Scan) : scanResult (scanFormat sc) = .format := rfl

@[simp] theorem scanActive_scanFormat (sc : Scan) : scanActive (scanFormat sc) = false := rfl

theorem scanActive_eq_false_iff {sc : Scan} :
    scanActive sc = false ↔ sc.format = true ∨ sc.rest = [] := by
  cases hf : sc.format <;> simp [scanActive, hf]

theorem scanPass_of_codeClass {sc : Scan} {c : Byte} {rest : List Byte} {literals trailing : Nat}
    (h : sc.rest = c :: rest) (hclass : codeClass c = some (literals, trailing)) :
    scanPass sc = scanBlock literals trailing { sc with rest := rest } := by
  rw [scanPass_cons h, hclass]

/-- A pass ends the loop with FORMAT, or takes the literals and the zeros of a well-formed block
(R140, R141). -/
theorem scanPass_cases {sc : Scan} {c : Byte} {rest : List Byte} (h : sc.rest = c :: rest) :
    scanPass sc = scanFormat { sc with rest := rest } ∨
      ∃ literals trailing, codeClass c = some (literals, trailing) ∧ literals ≤ rest.length ∧
        (0 : Byte) ∉ rest.take literals ∧ (scanPass sc).rest = rest.drop literals := by
  rw [scanPass_cons h]
  cases hclass : codeClass c with
  | none => exact .inl rfl
  | some block =>
    obtain ⟨literals, trailing⟩ := block
    obtain ⟨-, e⟩ | ⟨-, -, e⟩ | ⟨hlen, hlits, e⟩ :=
      scanBlock_cases literals trailing { sc with rest := rest }
    · exact .inl e
    · exact .inl e
    · exact .inr ⟨literals, trailing, rfl, hlen, hlits, congrArg Scan.rest e⟩

theorem length_rest_scanPass_lt {sc : Scan} (h : scanActive sc = true) :
    (scanPass sc).rest.length < sc.rest.length := by
  obtain ⟨-, c, rest, hr⟩ := rest_of_scanActive h
  rw [hr, List.length_cons]
  rcases scanPass_cases hr with e | ⟨literals, trailing, -, -, -, e⟩
  · rw [e]
    exact Nat.lt_succ_self rest.length
  · rw [e, List.length_drop]
    omega

theorem scanRun_of_active {sc : Scan} (h : scanActive sc = true) (fuel : Nat) :
    scanRun (fuel + 1) sc = scanRun fuel (scanPass sc) :=
  if_pos h

/-- A fuel of one pass a byte is enough to end the loop. -/
theorem scanActive_scanRun {fuel : Nat} {sc : Scan} (h : sc.rest.length ≤ fuel) :
    scanActive (scanRun fuel sc) = false := by
  induction fuel generalizing sc with
  | zero => exact scanActive_eq_false_iff.mpr (.inr (List.length_eq_zero_iff.mp (Nat.le_zero.mp h)))
  | succ fuel ih =>
    cases ha : scanActive sc with
    | false => rwa [scanRun_of_not_active ha]
    | true =>
      rw [scanRun_of_active ha]
      exact ih (by have := length_rest_scanPass_lt ha; omega)

/-! ### What decodes is a sequence of well-formed blocks -/

/-- The bytes are a sequence of well-formed blocks (R89). -/
def IsBlockSequence (stuffed : List Byte) : Prop :=
  ∃ bs, (∀ b ∈ bs, goodBlock b) ∧ stuffed = blockBytes bs

theorem isBlockSequence_nil : IsBlockSequence [] := ⟨[], by simp, rfl⟩

theorem IsBlockSequence.cons {c : Byte} {rest : List Byte} {literals trailing : Nat}
    (hclass : codeClass c = some (literals, trailing)) (hlen : literals ≤ rest.length)
    (hlits : (0 : Byte) ∉ rest.take literals) (h : IsBlockSequence (rest.drop literals)) :
    IsBlockSequence (c :: rest) := by
  obtain ⟨bs, hbs, hbytes⟩ := h
  refine ⟨(c, rest.take literals) :: bs, List.forall_mem_cons.mpr ⟨⟨trailing, ?_, hlits⟩, hbs⟩, ?_⟩
  · rw [List.length_take_of_le hlen, hclass]
  · rw [blockBytes_cons, ← hbytes, List.take_append_drop]

theorem isBlockSequence_of_ended {sc : Scan} (hend : scanActive sc = false)
    (hok : sc.format = false) : IsBlockSequence sc.rest := by
  rcases scanActive_eq_false_iff.mp hend with hformat | hnil
  · rw [hok] at hformat
    cases hformat
  · rw [hnil]
    exact isBlockSequence_nil

/-- A decode loop that has ended without a malformation has read a sequence of well-formed
blocks. -/
theorem isBlockSequence_of_scanRun {fuel : Nat} {sc : Scan}
    (hend : scanActive (scanRun fuel sc) = false) (hok : (scanRun fuel sc).format = false) :
    IsBlockSequence sc.rest := by
  induction fuel generalizing sc with
  | zero => exact isBlockSequence_of_ended hend hok
  | succ fuel ih =>
    cases ha : scanActive sc with
    | false =>
      rw [scanRun_of_not_active ha] at hok
      exact isBlockSequence_of_ended ha hok
    | true =>
      obtain ⟨-, c, rest, hr⟩ := rest_of_scanActive ha
      rw [scanRun_of_active ha] at hend hok
      rcases scanPass_cases hr with e | ⟨literals, trailing, hclass, hlen, hlits, e⟩
      · rw [e, scanRun_of_not_active (scanActive_scanFormat _)] at hok
        cases hok
      · rw [hr]
        exact .cons hclass hlen hlits (e ▸ ih hend hok)

/-- Settles O22: a decode that ends OK has read a sequence of blocks, and such a sequence decodes to
what it stands for. -/
theorem decoderAcceptsExactlyBlockSequences :
    Obligations.DecoderAcceptsExactlyBlockSequences := by
  intro stuffed d
  constructor
  · intro h
    have hok : (scanRun stuffed.length (scanStart stuffed)).format = false := by
      by_contra hf
      rw [stuffDecode, scanResult, if_pos (by simpa using hf)] at h
      cases h
    obtain ⟨bs, hbs, rfl⟩ : IsBlockSequence stuffed :=
      isBlockSequence_of_scanRun (sc := scanStart stuffed) (scanActive_scanRun le_rfl) hok
    rw [stuffDecode_blockBytes hbs] at h
    exact ⟨bs, hbs, rfl, (Decoded.ok.inj h).symm⟩
  · rintro ⟨bs, hbs, rfl, rfl⟩
    exact stuffDecode_blockBytes hbs

/-! ### The encoder's code bytes -/

/-- Settles O17: every pass of the encoder emits a code byte that is not zero, and literals. -/
theorem encoderOutputHoldsNoZero : Obligations.EncoderOutputHoldsNoZero :=
  zero_notMem_stuffEncode

/-! ### Code bytes as decoder instructions (R92) -/

/-- The rest of a pass does what R140 and R141 (b), (c) say of a block. -/
theorem takesBlock_scanBlock (literals trailing : Nat) (sc : Scan) :
    TakesBlock literals trailing sc (scanBlock literals trailing sc) := by
  unfold TakesBlock
  obtain ⟨hlen, e⟩ | ⟨-, hzero, e⟩ | ⟨hlen, hlits, e⟩ := scanBlock_cases literals trailing sc
  · rw [if_neg fun h => absurd h.1 (by omega), e]
    exact ⟨scanResult_scanFormat sc, scanActive_scanFormat sc⟩
  · rw [if_neg fun h => h.2 hzero, e]
    exact ⟨scanResult_scanFormat sc, scanActive_scanFormat sc⟩
  · rw [if_pos ⟨hlen, hlits⟩, e]
    exact ⟨rfl, rfl, rfl, rfl⟩

/-- Settles O24: each of the four classes takes its block and writes the decode loop only. -/
theorem codeBytesTakeTheirBlocks : Obligations.CodeBytesTakeTheirBlocks :=
  ⟨fun literals s => ⟨_, rfl, rfl, takesBlock_scanBlock literals 1 s.scan⟩,
    fun s => ⟨_, rfl, rfl, takesBlock_scanBlock 208 0 s.scan⟩,
    fun run s => ⟨_, rfl, rfl, takesBlock_scanBlock 0 run s.scan⟩,
    fun literals s => ⟨_, rfl, rfl, takesBlock_scanBlock literals 2 s.scan⟩⟩

/-- Settles O25: both classes mark the loop as malformed. -/
theorem badCodeBytesEndTheDecodeWithFormat : Obligations.BadCodeBytesEndTheDecodeWithFormat := by
  rintro i s (rfl | rfl)
  · exact ⟨s.setScan (scanFormat s.scan), rfl, rfl,
      scanResult_scanFormat _, scanActive_scanFormat _⟩
  · exact ⟨s.setScan (scanFormat s.scan), rfl, rfl,
      scanResult_scanFormat _, scanActive_scanFormat _⟩

/-- Settles O8: the byte is what `fetch` takes from the loop, and the step runs what it fetches. -/
theorem stepRunsTheDecodedCodeByte : Obligations.StepRunsTheDecodedCodeByte := by
  intro s c rest hformat hrest
  exact step_of_fetch_run (fetch_codeByte (by simp [scanActive, hformat, hrest]) hrest)

/-! ### Stepping the decode loop -/

/-- The class a code byte decodes to performs its pass of the decode loop (R92). -/
theorem exec_decodeCodeByte {s : State} {c : Byte} {rest : List Byte}
    (h : s.scan.rest = c :: rest) :
    exec (decodeCodeByte c) (s.setScan { s.scan with rest := rest }) =
      .next (s.setScan (scanPass s.scan)) := by
  rcases codeByte_cases c with rfl | ⟨n, hn, rfl⟩ | rfl | rfl | ⟨m, h3, h15, rfl⟩ | ⟨n, hn, rfl⟩
  · rw [scanPass_cons h]; rfl
  · rw [scanPass_of_codeClass h (codeClass_data hn), decodeCodeByte_data hn]; rfl
  · rw [scanPass_cons h]; rfl
  · rw [scanPass_cons h]; rfl
  · rw [scanPass_of_codeClass h (codeClass_zeroRun h3 h15), decodeCodeByte_zeroRun h3 h15]; rfl
  · rw [scanPass_of_codeClass h (codeClass_pair hn), decodeCodeByte_pair hn]; rfl

theorem step_of_scanActive {s : State} (h : scanActive s.scan = true) :
    step s = .next (s.setScan (scanPass s.scan)) := by
  obtain ⟨-, c, rest, hr⟩ := rest_of_scanActive h
  rw [step_of_fetch_run (fetch_codeByte h hr), exec_decodeCodeByte hr]

theorem run_succ_of_step {s t : State} (h : step s = .next t) (k : Nat) :
    Host.Core.run Sys2Proof.core (k + 1) s = Host.Core.run Sys2Proof.core k t := by
  simp only [Host.Core.run, show Sys2Proof.core.step s = .next t from h]

/-- Steps of the block make the passes of the decode loop, one a step. -/
theorem exists_run_eq_scanRun (fuel : Nat) (s : State) :
    ∃ k ≤ fuel, Host.Core.run Sys2Proof.core k s = .next (s.setScan (scanRun fuel s.scan)) := by
  induction fuel generalizing s with
  | zero => exact ⟨0, le_rfl, rfl⟩
  | succ fuel ih =>
    cases ha : scanActive s.scan with
    | false => exact ⟨0, Nat.zero_le _, by rw [scanRun_of_not_active ha]; rfl⟩
    | true =>
      obtain ⟨k, hk, hrun⟩ := ih (s.setScan (scanPass s.scan))
      refine ⟨k + 1, Nat.succ_le_succ hk, ?_⟩
      rw [run_succ_of_step (step_of_scanActive ha), hrun, scanRun_of_active ha]
      rfl

/-- Settles O26: the steps make the passes of the loop, and |s| passes end it. -/
theorem steppingTheDecodeLoopComputesDecode :
    Obligations.SteppingTheDecodeLoopComputesDecode := by
  intro s stuffed hstart
  obtain ⟨k, hk, hrun⟩ := exists_run_eq_scanRun stuffed.length s
  rw [hstart] at hrun
  exact ⟨k, _, hk, hrun, rfl, scanActive_scanRun le_rfl, rfl⟩

end Sys2Proof.Machine

/-! Proofs of the statements on 40_encoder.md: the encoding's length (R111), the streaming encoder
(R113), the round trip (R114), and the commands of the stand-alone encoder (R115 to R118). -/

namespace Sys2Proof.Machine

/-- Settles O19: an encoding is a sequence of blocks that stands for its input. -/
theorem decoderInvertsEncoder : Obligations.DecoderInvertsEncoder :=
  stuffDecode_stuffEncode

/-! ### The length of an encoding (R111) -/

theorem one_le_length_stuffEncode (x : List Byte) : 1 ≤ (stuffEncode x).length := by
  obtain ⟨code, lits, -, rest, -, -, -, hpass⟩ :=
    encodeLoop_pass x.length (List.concat_ne_nil 0 x) (endsInZero_append_zero x)
  rw [stuffEncode, hpass, List.length_cons]
  exact Nat.le_add_left 1 _

/-- Only the block of 208 literals has more than 207 of them, and it has no zeros (R91). -/
theorem literals_le_of_codeClass {c : Byte} {literals trailing : Nat}
    (h : codeClass c = some (literals, trailing)) (ht : 1 ≤ trailing) : literals ≤ 207 := by
  have hc := c.isLt
  unfold codeClass at h
  split_ifs at h <;> simp only [Option.some.injEq, Prod.mk.injEq] at h <;> omega

/-- Before the phantom zero of an input without 0x00, a block either takes 208 literals and no zero,
or takes all that is left and the phantom zero. -/
theorem block_of_zero_notMem_dropLast {code : Byte} {lits rest : List Byte} {trailing : Nat}
    (hclass : codeClass code = some (lits.length, trailing)) (hlits : (0 : Byte) ∉ lits)
    (hz : EndsInZero (lits ++ zeros trailing ++ rest))
    (h : (0 : Byte) ∉ (lits ++ zeros trailing ++ rest).dropLast) :
    (trailing = 0 ∧ lits.length = 208 ∧ rest ≠ []) ∨
      (trailing = 1 ∧ lits.length ≤ 207 ∧ rest = []) := by
  by_cases hrest : rest = []
  · subst hrest
    rw [List.append_nil] at hz h
    have ht := one_le_trailing_of_last_block hclass hlits hz
    obtain ⟨k, rfl⟩ := Nat.exists_eq_add_of_le' ht
    rw [zeros, List.replicate_succ', ← List.append_assoc, List.dropLast_concat, List.mem_append,
      List.mem_replicate] at h
    have hk : k = 0 := by
      by_contra hk
      exact h (.inr ⟨hk, rfl⟩)
    exact .inr ⟨by omega, literals_le_of_codeClass hclass ht, rfl⟩
  · rw [List.dropLast_append_of_ne_nil hrest, List.mem_append, List.mem_append, zeros,
      List.mem_replicate] at h
    have ht : trailing = 0 := by
      by_contra ht
      exact h (.inl (.inr ⟨ht, rfl⟩))
    have hmax := trailing_or_max_of_codeClass hclass
    exact .inl ⟨ht, by omega, hrest⟩

/-- The worst case of R111 is met by every input without 0x00: each block but the last then takes
208 bytes and emits 209. -/
theorem length_stuffEncode_of_zero_notMem {x : List Byte} (hx : (0 : Byte) ∉ x) :
    (stuffEncode x).length = worstCase x.length := by
  have exact_length : (0 : Byte) ∉ (x ++ [0]).dropLast →
      (stuffEncode x).length = (x ++ [0]).length + ((x ++ [0]).length - 1) / 208 := by
    refine encodeLoop_induction
      (P := fun y out => (0 : Byte) ∉ y.dropLast → out.length = y.length + (y.length - 1) / 208)
      (by simp) ?_ (by simp) (endsInZero_append_zero x)
    intro code lits trailing rest out hclass hlits hz ih h
    obtain ⟨rfl, h208, hrest⟩ | ⟨rfl, h207, rfl⟩ :=
      block_of_zero_notMem_dropLast hclass hlits hz h
    · rw [List.dropLast_append_of_ne_nil hrest] at h
      have hout := ih fun hmem => h (List.mem_append_right _ hmem)
      have hpos := List.length_pos_iff.mpr hrest
      simp only [zeros, List.length_cons, List.length_append, List.length_replicate, hout]
      omega
    · have hout : out.length = 0 := ih (by simp)
      simp only [zeros, List.length_cons, List.length_append, List.length_replicate, hout,
        List.length_nil]
      omega
  rw [exact_length (by simpa using hx)]
  simp [worstCase, Config.runMax, Nat.add_right_comm]

/-- Settles O18: the bound, the case without 0x00, and the values of `W`. -/
theorem encoderOutputFitsTheWorstCase : Obligations.EncoderOutputFitsTheWorstCase :=
  ⟨fun x => ⟨one_le_length_stuffEncode x, length_stuffEncode_le x,
      length_stuffEncode_of_zero_notMem⟩,
    fun _ => rfl, rfl, rfl, rfl, rfl⟩

/-! ### One pass of the loop of R110 on a run that is known -/

@[simp] theorem encodeLoop_nil (fuel : Nat) : encodeLoop fuel [] = [] := by
  cases fuel <;> rfl

theorem zeroRun_zeros_append (k : Nat) (rest : List Byte) :
    zeroRun (zeros k ++ rest) = k + zeroRun rest := by
  induction k with
  | zero => simp [zeros]
  | succ k ih =>
    rw [zeros, List.replicate_succ, List.cons_append, zeroRun_zero_cons, ← zeros, ih]
    omega

theorem dataRun_append {lits : List Byte} (h : (0 : Byte) ∉ lits) (rest : List Byte) :
    dataRun (lits ++ rest) = lits.length + dataRun rest := by
  induction lits with
  | nil => simp
  | cons b bs ih =>
    obtain ⟨hb, hbs⟩ := not_or.mp (List.mem_cons.not.mp h)
    rw [List.cons_append, dataRun_cons_of_ne (Ne.symm hb), ih hbs, List.length_cons]
    omega

/-- A pass takes a run of up to 15 zeros whole, and 15 zeros of a longer one. -/
theorem encodeLoop_zeros (fuel : Nat) {k : Nat} {rest : List Byte} (hk : 1 ≤ k)
    (hrun : min (k + zeroRun rest) 15 = k) :
    encodeLoop (fuel + 1) (zeros k ++ rest) = zeroCode k :: encodeLoop fuel rest := by
  have hz := zeroRun_zeros_append k rest
  obtain ⟨m, rfl⟩ := Nat.exists_eq_add_of_le' hk
  have hdrop : ((0 : Byte) :: (zeros m ++ rest)).drop (m + 1) = rest := by simp [zeros]
  rw [zeros, List.replicate_succ, List.cons_append, ← zeros] at hz ⊢
  simp only [encodeLoop, if_true, hz, zeroCode]
  obtain h3 | rfl | rfl : 3 ≤ m + 1 ∨ m = 1 ∨ m = 0 := by omega
  · rw [if_pos (by omega), if_pos h3, hrun, hdrop]
  · rw [if_neg (by omega), if_pos (by omega), hdrop]
    rfl
  · rw [if_neg (by omega), if_neg (by omega), hdrop]
    rfl

section
variable {lits : List Byte} (fuel : Nat) (hne : lits ≠ []) (hlits : (0 : Byte) ∉ lits)
include hne hlits

/-- A pass on a list that starts with data goes by the length of the data and of the zeros after
it. -/
theorem encodeLoop_lits (rest : List Byte) :
    encodeLoop (fuel + 1) (lits ++ rest) =
      let y := lits ++ rest
      let n := lits.length + dataRun rest
      if 208 ≤ n then 0xD1 :: (y.take 208 ++ encodeLoop fuel (y.drop 208))
      else if n ≤ 31 ∧ 2 ≤ zeroRun (y.drop n) then
        codeByteOf (0xE0 + n) :: (y.take n ++ encodeLoop fuel (y.drop (n + 2)))
      else codeByteOf (n + 1) :: (y.take n ++ encodeLoop fuel (y.drop (n + 1))) := by
  rw [← dataRun_append hlits]
  obtain ⟨b, bs, rfl⟩ := List.exists_cons_of_ne_nil hne
  have hb : b ≠ 0 := fun h => hlits (h ▸ List.mem_cons_self)
  exact if_neg hb

theorem encodeLoop_dataMax (h208 : lits.length = 208) (rest : List Byte) :
    encodeLoop (fuel + 1) (lits ++ rest) = 0xD1 :: (lits ++ encodeLoop fuel rest) := by
  rw [encodeLoop_lits fuel hne hlits]
  dsimp only
  rw [if_pos (by omega), ← h208, List.take_left, List.drop_left]

theorem encodeLoop_pair (h31 : lits.length ≤ 31) (rest : List Byte) :
    encodeLoop (fuel + 1) (lits ++ 0 :: 0 :: rest) =
      codeByteOf (0xE0 + lits.length) :: (lits ++ encodeLoop fuel rest) := by
  rw [encodeLoop_lits fuel hne hlits]
  simp [dataRun, zeroRun, h31, show ¬ 208 ≤ lits.length by omega]

theorem encodeLoop_single (h207 : lits.length ≤ 207) {rest : List Byte}
    (hrest : 31 < lits.length ∨ zeroRun rest = 0) :
    encodeLoop (fuel + 1) (lits ++ 0 :: rest) =
      codeByteOf (lits.length + 1) :: (lits ++ encodeLoop fuel rest) := by
  have hpair : lits.length ≤ 31 → zeroRun rest = 0 := fun h => hrest.resolve_left (by omega)
  rw [encodeLoop_lits fuel hne hlits]
  simp +contextual [dataRun, zeroRun, hpair, show ¬ 208 ≤ lits.length by omega]

end

/-! ### The streaming encoder (R113) -/

/-- The bytes a state has been fed and not yet emitted. -/
def StreamState.pending : StreamState → List Byte
  | .idle => []
  | .lit _ buf => buf
  | .litz _ buf => buf ++ [0]
  | .zrun k => zeros k

/-- The states the streaming encoder reaches: each is the start of one block that the next byte may
still change. -/
def StreamState.wf : StreamState → Prop
  | .idle => True
  | .lit n buf => buf ≠ [] ∧ (0 : Byte) ∉ buf ∧ n = buf.length ∧ n ≤ 207
  | .litz n buf => buf ≠ [] ∧ (0 : Byte) ∉ buf ∧ n = buf.length ∧ n ≤ 31
  | .zrun k => 1 ≤ k ∧ k ≤ 14

theorem wf_lit_singleton {b : Byte} (hb : b ≠ 0) : (StreamState.lit 1 [b]).wf :=
  ⟨List.cons_ne_nil b [], List.mem_singleton.not.mpr hb.symm, rfl, by omega⟩

/-- What a fed byte does: it joins the pending bytes, or one pass of the loop of R110 takes a block
off the front of what was pending and the byte, and emits it. -/
def FeedStep (st : StreamState) (b : Byte) (st' : StreamState) (out : List Byte) : Prop :=
  st'.wf ∧ ∃ block, st.pending ++ [b] = block ++ st'.pending ∧
    ((block = [] ∧ out = []) ∨
      (block ≠ [] ∧ ∀ fuel bs,
        encodeLoop (fuel + 1) (st.pending ++ b :: bs) =
          out ++ encodeLoop fuel (st'.pending ++ bs)))

theorem feedStep_join {st st' : StreamState} {b : Byte} (h : st'.wf)
    (hpending : st'.pending = st.pending ++ [b]) : FeedStep st b st' [] :=
  ⟨h, [], hpending.symm, .inl ⟨rfl, rfl⟩⟩

/-- The byte ends the block. -/
theorem feedStep_emit_all {st : StreamState} {b : Byte} {out : List Byte}
    (h : ∀ fuel bs, encodeLoop (fuel + 1) (st.pending ++ b :: bs) = out ++ encodeLoop fuel bs) :
    FeedStep st b .idle out :=
  ⟨trivial, _, (List.append_nil _).symm, .inr ⟨List.concat_ne_nil b _, h⟩⟩

/-- The byte is data that comes after the block. -/
theorem feedStep_emit_before {st : StreamState} {b : Byte} {out : List Byte} (hb : b ≠ 0)
    (hne : st.pending ≠ [])
    (h : ∀ fuel bs, encodeLoop (fuel + 1) (st.pending ++ b :: bs) =
      out ++ encodeLoop fuel (b :: bs)) :
    FeedStep st b (.lit 1 [b]) out :=
  ⟨wf_lit_singleton hb, st.pending, rfl, .inr ⟨hne, h⟩⟩

theorem feedStep_idle (b : Byte) :
    FeedStep .idle b (streamFeed .idle b).1 (streamFeed .idle b).2 := by
  by_cases hb : b = 0
  · subst hb
    exact feedStep_join ⟨le_rfl, by omega⟩ rfl
  · simp only [streamFeed, if_neg hb]
    exact feedStep_join (wf_lit_singleton hb) rfl

theorem feedStep_lit {n : Nat} {buf : List Byte} (h : (StreamState.lit n buf).wf) (b : Byte) :
    FeedStep (.lit n buf) b (streamFeed (.lit n buf) b).1 (streamFeed (.lit n buf) b).2 := by
  obtain ⟨hne, hbuf, rfl, h207⟩ := h
  by_cases hb : b = 0
  · subst hb
    by_cases h31 : buf.length ≤ 31
    · simp only [streamFeed, if_true, if_pos h31]
      exact feedStep_join ⟨hne, hbuf, rfl, h31⟩ rfl
    · simp only [streamFeed, if_true, if_neg h31]
      exact feedStep_emit_all fun fuel _ =>
        encodeLoop_single fuel hne hbuf h207 (.inl (by omega))
  · have hlits : (0 : Byte) ∉ buf ++ [b] := by
      rw [List.mem_append, List.mem_singleton]
      exact not_or.mpr ⟨hbuf, Ne.symm hb⟩
    have hlen : (buf ++ [b]).length = buf.length + 1 := List.length_append
    by_cases h208 : buf.length + 1 = 208
    · simp only [streamFeed, if_neg hb, if_pos h208]
      refine feedStep_emit_all fun fuel bs => ?_
      rw [StreamState.pending, List.append_cons]
      exact encodeLoop_dataMax fuel (List.concat_ne_nil b buf) hlits (hlen.trans h208) bs
    · simp only [streamFeed, if_neg hb, if_neg h208]
      exact feedStep_join ⟨List.concat_ne_nil b buf, hlits, hlen.symm, by omega⟩ rfl

theorem feedStep_litz {n : Nat} {buf : List Byte} (h : (StreamState.litz n buf).wf) (b : Byte) :
    FeedStep (.litz n buf) b (streamFeed (.litz n buf) b).1 (streamFeed (.litz n buf) b).2 := by
  obtain ⟨hne, hbuf, rfl, h31⟩ := h
  by_cases hb : b = 0
  · subst hb
    refine feedStep_emit_all fun fuel bs => ?_
    rw [StreamState.pending, List.append_assoc]
    exact encodeLoop_pair fuel hne hbuf h31 bs
  · simp only [streamFeed, if_neg hb]
    refine feedStep_emit_before hb (List.concat_ne_nil 0 buf) fun fuel bs => ?_
    rw [StreamState.pending, List.append_assoc]
    exact encodeLoop_single fuel hne hbuf (by omega) (.inr (zeroRun_cons_of_ne hb bs))

theorem feedStep_zrun {k : Nat} (h : (StreamState.zrun k).wf) (b : Byte) :
    FeedStep (.zrun k) b (streamFeed (.zrun k) b).1 (streamFeed (.zrun k) b).2 := by
  obtain ⟨h1, h14⟩ := h
  by_cases hb : b = 0
  · subst hb
    by_cases h15 : k + 1 = 15
    · obtain rfl : k = 14 := by omega
      exact feedStep_emit_all fun fuel bs =>
        encodeLoop_zeros fuel (k := 15) (by omega) (by omega)
    · simp only [streamFeed, if_true, if_neg h15]
      exact feedStep_join ⟨by omega, by omega⟩ List.replicate_succ'
  · simp only [streamFeed, if_neg hb]
    refine feedStep_emit_before hb ?_ fun fuel bs => ?_
    · exact List.ne_nil_of_length_pos (by rwa [StreamState.pending, zeros, List.length_replicate])
    · exact encodeLoop_zeros fuel h1 (by rw [zeroRun_cons_of_ne hb]; omega)

theorem feedStep_streamFeed {st : StreamState} (h : st.wf) (b : Byte) :
    FeedStep st b (streamFeed st b).1 (streamFeed st b).2 := by
  cases st with
  | idle => exact feedStep_idle b
  | lit n buf => exact feedStep_lit h b
  | litz n buf => exact feedStep_litz h b
  | zrun k => exact feedStep_zrun h b

/-- After the phantom zero the pending bytes are one whole block, and the flush emits it. -/
theorem streamFlush_eq_encodeLoop {st : StreamState} (h : st.wf) (hz : EndsInZero st.pending)
    {fuel : Nat} (hfuel : st.pending.length ≤ fuel) :
    streamFlush st = encodeLoop fuel st.pending := by
  cases st with
  | idle => exact (encodeLoop_nil fuel).symm
  | lit n buf =>
    obtain ⟨hne, hbuf, -⟩ := h
    exact absurd (hz.zero_mem hne) hbuf
  | litz n buf =>
    obtain ⟨hne, hbuf, rfl, h31⟩ := h
    simp only [StreamState.pending, List.length_append, List.length_singleton] at hfuel
    obtain ⟨fuel, rfl⟩ := Nat.exists_eq_add_of_le' (show 1 ≤ fuel by omega)
    have hpass := encodeLoop_single fuel hne hbuf (by omega) (.inr (rfl : zeroRun [] = 0))
    rw [encodeLoop_nil, List.append_nil] at hpass
    exact hpass.symm
  | zrun k =>
    obtain ⟨h1, h14⟩ := h
    simp only [StreamState.pending, zeros, List.length_replicate] at hfuel
    obtain ⟨fuel, rfl⟩ := Nat.exists_eq_add_of_le' (show 1 ≤ fuel by omega)
    have hpass := encodeLoop_zeros fuel (rest := []) h1 (by simp only [zeroRun]; omega)
    rw [encodeLoop_nil, List.append_nil] at hpass
    exact hpass.symm

/-- A fed byte takes from the loop of R110 exactly what it emits. -/
theorem FeedStep.encodeLoop_eq {st st' : StreamState} {b : Byte} {out : List Byte}
    (h : FeedStep st b st' out) {bs : List Byte} {fuel : Nat}
    (hfuel : (st.pending ++ b :: bs).length ≤ fuel) :
    ∃ fuel', (st'.pending ++ bs).length ≤ fuel' ∧
      encodeLoop fuel (st.pending ++ b :: bs) = out ++ encodeLoop fuel' (st'.pending ++ bs) := by
  obtain ⟨-, block, hsplit, ⟨rfl, rfl⟩ | ⟨hne, hpass⟩⟩ := h
  · rw [List.append_cons, hsplit] at hfuel ⊢
    exact ⟨fuel, hfuel, rfl⟩
  · have hpos := List.length_pos_iff.mpr hne
    have hlen := congrArg List.length hsplit
    simp only [List.length_append, List.length_cons, List.length_nil] at hfuel hlen
    obtain ⟨fuel, rfl⟩ := Nat.exists_eq_add_of_le' (show 1 ≤ fuel by omega)
    exact ⟨fuel, by rw [List.length_append]; omega, hpass fuel bs⟩

theorem FeedStep.endsInZero {st st' : StreamState} {out : List Byte} (h : FeedStep st 0 st' out) :
    EndsInZero st'.pending := by
  obtain ⟨-, block, hsplit, -⟩ := h
  exact (hsplit ▸ endsInZero_append_zero st.pending).of_append

/-- The streaming encoder makes the passes of the loop of R110 on what is pending and what is still
to come. -/
theorem streamFrom_eq_encodeLoop (x : List Byte) {st : StreamState} (h : st.wf) {fuel : Nat}
    (hfuel : (st.pending ++ (x ++ [0])).length ≤ fuel) :
    streamFrom st x = encodeLoop fuel (st.pending ++ (x ++ [0])) := by
  induction x generalizing st fuel with
  | nil =>
    have hstep := feedStep_streamFeed h 0
    obtain ⟨fuel', hfuel', heq⟩ := hstep.encodeLoop_eq (bs := []) hfuel
    rw [List.append_nil] at hfuel' heq
    rw [streamFrom, streamFlush_eq_encodeLoop hstep.1 hstep.endsInZero hfuel']
    exact heq.symm
  | cons b x ih =>
    have hstep := feedStep_streamFeed h b
    obtain ⟨fuel', hfuel', heq⟩ := hstep.encodeLoop_eq hfuel
    rw [streamFrom, ih hstep.1 hfuel']
    exact heq.symm

/-- Settles O20: nothing is pending at the start. -/
theorem streamingEncoderEmitsTheEncoding : Obligations.StreamingEncoderEmitsTheEncoding := by
  intro x
  exact streamFrom_eq_encodeLoop x (st := .idle) trivial (by simp [StreamState.pending])

/-! ### Reads of `ENC_OUT` (R61) -/

theorem bufRead_encOut_of_invalid {s : State} (h : s.enc.outValid = false) (i : Nat) :
    bufRead s .encOut i = none := by
  simp [bufRead, h]

/-- An output that fits `ENC_CAP` and is as long as `ENC_LEN` says reads back byte by byte. -/
theorem bufRead_encOut_of_written {s : State} {e : List Byte} (hvalid : s.enc.outValid = true)
    (hcap : e.length ≤ s.params.encCap) (hlen : s.enc.len.toNat = e.length)
    (hout : s.enc.out = bufWriteAll s.params.encCap [] 0 e) (i : Nat) :
    bufRead s .encOut i = e[i]? := by
  simp only [bufRead, hvalid, hlen, hout, memRead_bufWriteAll hcap, true_and]
  split
  · rfl
  · exact (List.getElem?_eq_none (by omega)).symm

/-! ### One command of the encoder (R115 to R117) -/

/-- Settles O27, by what `ENC_START` writes. -/
theorem encStartOpensAnEmptyEncoding : Obligations.EncStartOpensAnEmptyEncoding :=
  ⟨fun imm => decodeCommand_commandWord 0x10 imm, fun s =>
    ⟨completeCommand (s.setEnc (encStartUnit s.enc)), rfl, rfl, rfl, rfl, rfl, rfl, rfl,
      bufRead_encOut_of_invalid rfl⟩⟩

/-- With `ENC_CAP` = 133 the worst case of one more byte is too long from 132 bytes on. -/
theorem oneThirtyThree_lt_worstCase_succ_iff (n : Nat) : 133 < worstCase (n + 1) ↔ 132 ≤ n := by
  simp only [worstCase, Config.runMax]
  omega

/-- The byte fed last keeps `ENC_NIN` below `ENC_CAP` (R116). -/
theorem toNat_nin_encFeedUnit_le {p : Params} (b : Byte) {u : EncUnit}
    (h : u.nin.toNat ≤ p.encCap - 1) : (encFeedUnit p b u).nin.toNat ≤ p.encCap - 1 := by
  obtain ⟨-, e⟩ | ⟨-, -, e⟩ | ⟨-, -, -, e⟩ | ⟨-, -, hfit, e⟩ := encFeedUnit_cases p b u <;> rw [e]
  · exact h
  · exact h
  · exact h
  · have hnin : (u.nin + 1).toNat ≤ u.nin.toNat + 1 := Nat.mod_le _ _
    have hlt := lt_worstCase (u.nin.toNat + 1)
    show (u.nin + 1).toNat ≤ p.encCap - 1
    omega

/-- An open encoding without NOMEM gets it from the byte whose worst case does not fit. -/
theorem status_encFeedUnit_eq_noMem_iff {p : Params} (b : Byte) {u : EncUnit}
    (hphase : u.phase = .opened) (hstatus : u.status ≠ .noMem) :
    (encFeedUnit p b u).status = .noMem ↔ p.encCap < worstCase (u.nin.toNat + 1) := by
  obtain ⟨hidle, -⟩ | ⟨-, hno, -⟩ | ⟨-, -, hlt, e⟩ | ⟨-, -, hfit, e⟩ := encFeedUnit_cases p b u
  · rw [hphase] at hidle
    cases hidle
  · exact absurd hno hstatus
  · rw [e]
    exact ⟨fun _ => hlt, fun _ => rfl⟩
  · rw [e]
    exact ⟨fun h => absurd h hstatus, fun h => absurd hfit (by omega)⟩

/-- Settles O28, by the outcomes of an offered byte. -/
theorem encFeedAcceptsDropsOrRefuses : Obligations.EncFeedAcceptsDropsOrRefuses := by
  refine ⟨fun imm => decodeCommand_commandWord 0x11 imm, fun b s =>
    ⟨completeCommand (s.setEnc (encFeedUnit s.params b s.enc)), rfl, rfl, ?_,
      fun hcap hphase hstatus => ?_, toNat_nin_encFeedUnit_le b⟩⟩
  · obtain ⟨hph, e⟩ | ⟨hph, hno, e⟩ | ⟨hph, hno, hlt, e⟩ | ⟨hph, hno, hfit, e⟩ :=
      encFeedUnit_cases s.params b s.enc
    · rw [if_pos hph]
      exact e
    · rw [if_neg (by simp [hph]), if_pos hno]
      exact e
    · rw [if_neg (by simp [hph]), if_neg hno]
      exact (if_pos hlt).mpr e
    · rw [if_neg (by simp [hph]), if_neg hno]
      exact (if_neg (Nat.not_lt.mpr hfit)).mpr e
  · rw [← oneThirtyThree_lt_worstCase_succ_iff, ← hcap]
    exact status_encFeedUnit_eq_noMem_iff b hphase hstatus

/-- Settles O29, by the outcomes of finishing an encoding; what is written fits by R111. -/
theorem encFinishWritesTheEncoding : Obligations.EncFinishWritesTheEncoding := by
  refine ⟨fun imm => decodeCommand_commandWord 0x12 imm, fun s =>
    ⟨completeCommand (s.setEnc (encFinishUnit s.params s.enc)), rfl, rfl, ?_⟩⟩
  dsimp only [completeCommand, State.setCmdStatus_enc, State.setEnc_enc]
  obtain ⟨hph, e⟩ | ⟨hph, hno, e⟩ | ⟨hph, hno, e⟩ := encFinishUnit_cases s.params s.enc <;> rw [e]
  · rw [if_pos hph]
    exact ⟨rfl, rfl, rfl⟩
  · rw [if_neg (by simp [hph]), if_pos hno]
    exact ⟨rfl, rfl, rfl, hno, rfl, bufRead_encOut_of_invalid rfl⟩
  · rw [if_neg (by simp [hph]), if_neg hno]
    refine ⟨rfl, rfl, rfl, rfl, fun hfit hwidth => ?_⟩
    have hcap := (length_stuffEncode_le s.enc.inp).trans hfit
    have hlen : (BitVec.ofNat 16 (stuffEncode s.enc.inp).length).toNat =
        (stuffEncode s.enc.inp).length :=
      (BitVec.toNat_ofNat _ 16).trans (Nat.mod_eq_of_lt (hcap.trans_lt hwidth))
    exact ⟨hlen, bufRead_encOut_of_written rfl hcap hlen rfl⟩

/-! ### An encoding of several bytes (R118) -/

/-- The encoder after it has been fed a list of bytes. -/
def encFeedAll (p : Params) (x : List Byte) (u : EncUnit) : EncUnit :=
  x.foldl (fun u b => encFeedUnit p b u) u

/-- The block after `ENC_START` and one `ENC_FEED` a byte. -/
def encFed (x : List Byte) (s : State) : State :=
  completeCommand (s.setEnc (encFeedAll s.params x (encStartUnit s.enc)))

theorem encFeedAll_cons (p : Params) (b : Byte) (x : List Byte) (u : EncUnit) :
    encFeedAll p (b :: x) u = encFeedAll p x (encFeedUnit p b u) := rfl

theorem execAll_encFeed (x : List Byte) (s : State) (u : EncUnit) :
    execAll (x.map .encFeed) (completeCommand (s.setEnc u)) =
      .next (completeCommand (s.setEnc (encFeedAll s.params x u))) := by
  induction x generalizing u with
  | nil => rfl
  | cons b x ih => exact ih (encFeedUnit s.params b u)

/-- The commands of `ENCODE` end as the `ENC_FINISH` after all the feeds does. -/
theorem execAll_encodeProgram (x : List Byte) {s t : State}
    (h : exec .encFinish (encFed x s) = .next t) : execAll (encodeProgram x) s = .next t := by
  have hstart : exec .encStart s = .next (completeCommand (s.setEnc (encStartUnit s.enc))) := rfl
  rw [encodeProgram, execAll_cons hstart, execAll_append (execAll_encFeed x s _)]
  exact execAll_cons h

theorem worstCase_mono {m n : Nat} (h : m ≤ n) : worstCase m ≤ worstCase n :=
  Nat.succ_le_succ (Nat.add_le_add h (Nat.div_le_div_right h))

/-- The count of accepted bytes does not wrap while their worst case fits. -/
theorem toNat_nin_succ {cap : Nat} {v : Word} (hfit : worstCase (v.toNat + 1) ≤ cap)
    (hwidth : cap < 65536) : (v + 1).toNat = v.toNat + 1 :=
  BitVec.toNat_add_of_lt (((lt_worstCase _).trans_le hfit).trans hwidth)

theorem encFeedUnit_of_fits {p : Params} (b : Byte) {u : EncUnit} (hphase : u.phase = .opened)
    (hstatus : u.status ≠ .noMem) (hfit : worstCase (u.nin.toNat + 1) ≤ p.encCap) :
    encFeedUnit p b u = { u with inp := u.inp ++ [b], nin := u.nin + 1 } := by
  simp [encFeedUnit, hphase, hstatus, Nat.not_lt.mpr hfit]

/-- Bytes whose worst case fits are all accepted, in order (R116). -/
theorem encFeedAll_of_fits {p : Params} (hwidth : p.encCap < 65536) (x : List Byte) {u : EncUnit}
    (hphase : u.phase = .opened) (hstatus : u.status ≠ .noMem)
    (hfit : worstCase (u.nin.toNat + x.length) ≤ p.encCap) :
    (encFeedAll p x u).phase = .opened ∧ (encFeedAll p x u).status = u.status ∧
      (encFeedAll p x u).inp = u.inp ++ x ∧
      (encFeedAll p x u).nin.toNat = u.nin.toNat + x.length := by
  induction x generalizing u with
  | nil => exact ⟨hphase, rfl, (List.append_nil u.inp).symm, rfl⟩
  | cons b x ih =>
    rw [List.length_cons, Nat.add_comm x.length, ← Nat.add_assoc] at hfit ⊢
    have hfirst := (worstCase_mono (Nat.le_add_right _ x.length)).trans hfit
    have hnin := toNat_nin_succ hfirst hwidth
    rw [encFeedAll_cons, encFeedUnit_of_fits b hphase hstatus hfirst, ← hnin,
      List.append_cons u.inp b x]
    rw [← hnin] at hfit
    exact ih (u := { u with inp := u.inp ++ [b], nin := u.nin + 1 }) hphase hstatus hfit

/-- Bytes whose worst case does not fit set NOMEM with one of them, and it stays (R116). -/
theorem encFeedAll_of_overlong {p : Params} (hwidth : p.encCap < 65536) (x : List Byte)
    {u : EncUnit} (hphase : u.phase = .opened) (hfits : worstCase u.nin.toNat ≤ p.encCap)
    (hlong : u.status = .noMem ∨ p.encCap < worstCase (u.nin.toNat + x.length)) :
    (encFeedAll p x u).phase = .opened ∧ (encFeedAll p x u).status = .noMem := by
  induction x generalizing u with
  | nil => exact ⟨hphase, hlong.resolve_right (Nat.not_lt.mpr hfits)⟩
  | cons b x ih =>
    rw [encFeedAll_cons]
    obtain ⟨hidle, -⟩ | ⟨-, hno, e⟩ | ⟨-, -, -, e⟩ | ⟨-, hstatus, hfirst, e⟩ :=
      encFeedUnit_cases p b u
    · rw [hphase] at hidle
      cases hidle
    · rw [e]
      exact ih hphase hfits (.inl hno)
    · rw [e]
      exact ih (u := { u with status := .noMem }) hphase hfits (.inl rfl)
    · have hlong := hlong.resolve_left hstatus
      have hnin := toNat_nin_succ hfirst hwidth
      rw [List.length_cons, Nat.add_comm x.length, ← Nat.add_assoc, ← hnin] at hlong
      rw [← hnin] at hfirst
      rw [e]
      exact ih (u := { u with inp := u.inp ++ [b], nin := u.nin + 1 }) hphase hfirst (.inr hlong)

/-- Settles O30: the feeds of all parts are those of the concatenation, and every byte is
accepted. -/
theorem encodingDoesNotDependOnTheSplit : Obligations.EncodingDoesNotDependOnTheSplit := by
  intro s parts hwidth hfit
  rw [← List.map_flatten]
  generalize parts.flatten = x at hfit ⊢
  obtain ⟨hphase, hstatus, hinp, hnin⟩ :
      (encFed x s).enc.phase = .opened ∧ (encFed x s).enc.status = .ok ∧
        (encFed x s).enc.inp = x ∧ (encFed x s).enc.nin.toNat = 0 + x.length :=
    encFeedAll_of_fits hwidth x (u := encStartUnit s.enc) rfl EncStatus.noConfusion
      ((Nat.zero_add x.length).symm ▸ hfit)
  obtain ⟨t, hexec, hframe, -, htnin, hout⟩ := encFinishWritesTheEncoding.2 (encFed x s)
  rw [if_neg (by simp [hphase]), if_neg (by simp [hstatus]), hinp] at hout
  obtain ⟨htphase, htstatus, hwritten⟩ := hout
  obtain ⟨hlen, hread⟩ := hwritten hfit hwidth
  rw [Nat.zero_add, ← htnin] at hnin
  exact ⟨t, execAll_encodeProgram x hexec, hframe, htphase, htstatus, hnin, hlen, hread⟩

/-- Settles O31: some byte sets NOMEM, and `ENC_FINISH` reports it. -/
theorem overlongEncodingEndsInNomem : Obligations.OverlongEncodingEndsInNomem := by
  intro s x hwf hwidth hlong
  have hcap : worstCase 0 ≤ s.params.encCap :=
    (worstCase_mono (Nat.zero_le _)).trans (of_decide_eq_true hwf).1
  obtain ⟨hphase, hstatus⟩ :
      (encFed x s).enc.phase = .opened ∧ (encFed x s).enc.status = .noMem :=
    encFeedAll_of_overlong hwidth x (u := encStartUnit s.enc) rfl hcap
      (.inr ((Nat.zero_add x.length).symm ▸ hlong))
  obtain ⟨t, hexec, hframe, -, -, hout⟩ := encFinishWritesTheEncoding.2 (encFed x s)
  rw [if_neg (by simp [hphase]), if_pos hstatus] at hout
  exact ⟨t, execAll_encodeProgram x hexec, hframe, hout⟩

end Sys2Proof.Machine

/-! Proofs of the statements on 41_decoder.md: the malformations (R141), the commands of the
stand-alone decoder (R145 to R147), and the round trip through the commands (R148). -/

namespace Sys2Proof.Machine

/-! ### Malformations (R141) -/

/-- A pass that ends the loop with FORMAT makes the decode FORMAT, whatever well-formed blocks come
before it. -/
theorem stuffDecode_of_malformedPass {bs : List (Byte × List Byte)} (hbs : ∀ b ∈ bs, goodBlock b)
    {c : Byte} {rest : List Byte}
    (hpass : ∀ sc : Scan, sc.rest = c :: rest → scanPass sc = scanFormat { sc with rest := rest }) :
    stuffDecode (blockBytes bs ++ c :: rest) = .format := by
  obtain ⟨fuel, hfuel⟩ : ∃ fuel, (blockBytes bs ++ c :: rest).length = bs.length + (fuel + 1) := by
    refine ⟨(blockBytes bs).length - bs.length + rest.length, ?_⟩
    have hblocks := length_le_length_blockBytes bs
    rw [List.length_append, List.length_cons]
    omega
  rw [stuffDecode, scanStart, hfuel, scanRun_goodBlocks hbs, scanRun_cons, hpass _ rfl,
    scanRun_of_not_active (scanActive_scanFormat _), scanResult_scanFormat]

theorem scanBlock_of_truncated {literals trailing : Nat} {sc : Scan}
    (h : sc.rest.length < literals) : scanBlock literals trailing sc = scanFormat sc :=
  if_pos h

theorem scanBlock_of_zeroLiteral {literals trailing : Nat} {sc : Scan}
    (hlen : literals ≤ sc.rest.length) (hzero : (0 : Byte) ∈ sc.rest.take literals) :
    scanBlock literals trailing sc = scanFormat sc :=
  (if_neg (Nat.not_lt.mpr hlen)).trans (if_pos hzero)

/-- Settles O23: after the blocks, the pass on the malformed block ends the loop. -/
theorem malformedStuffingIsFormat : Obligations.MalformedStuffingIsFormat := by
  intro bs c rest hbs
  refine ⟨fun hbad => ?_, fun literals trailing hclass hshort => ?_,
    fun literals trailing hclass hlen hzero => ?_⟩ <;>
    refine stuffDecode_of_malformedPass hbs fun sc hrest => ?_
  · have hnone : codeClass c = none := if_pos hbad
    rw [scanPass_cons hrest, hnone]
  · rw [scanPass_of_codeClass hrest hclass, scanBlock_of_truncated hshort]
  · rw [scanPass_of_codeClass hrest hclass, scanBlock_of_zeroLiteral hlen hzero]

/-! ### Reads of `DEC_OUT` (R61) -/

theorem bufRead_decOut_of_invalid {s : State} (h : s.dec.outValid = false) (i : Nat) :
    bufRead s .decOut i = none := by
  simp [bufRead, h]

/-- An output that fits `DEC_CAP` and is as long as `DEC_LEN` says reads back byte by byte. -/
theorem bufRead_decOut_of_written {s : State} {d : List Byte} (hvalid : s.dec.outValid = true)
    (hcap : d.length ≤ s.params.decCap) (hlen : s.dec.len.toNat = d.length)
    (hout : s.dec.out = bufWriteAll s.params.decCap [] 0 d) (i : Nat) :
    bufRead s .decOut i = d[i]? := by
  simp only [bufRead, hvalid, hlen, hout, memRead_bufWriteAll hcap, true_and]
  split
  · rfl
  · exact (List.getElem?_eq_none (by omega)).symm

/-! ### One command of the decoder (R145 to R147) -/

/-- Settles O32, by what `DEC_START` writes. -/
theorem decStartOpensAnEmptyDecoding : Obligations.DecStartOpensAnEmptyDecoding :=
  ⟨fun imm => decodeCommand_commandWord 0x20 imm, fun s =>
    ⟨completeCommand (s.setDec (decStartUnit s.dec)), rfl, rfl, rfl, rfl, rfl, rfl,
      bufRead_decOut_of_invalid rfl⟩⟩

theorem decFeedUnit_of_idle (b : Byte) {u : DecUnit} (h : u.phase = .idle) :
    decFeedUnit b u = { u with status := .seqErr } :=
  if_pos h

theorem decFeedUnit_of_opened (b : Byte) {u : DecUnit} (h : u.phase = .opened) :
    decFeedUnit b u = { u with inp := u.inp ++ [b] } :=
  if_neg (by simp [h])

/-- Settles O33, by the phase that the byte meets. -/
theorem decFeedAppendsItsByte : Obligations.DecFeedAppendsItsByte := by
  refine ⟨fun imm => decodeCommand_commandWord 0x21 imm, fun b s =>
    ⟨completeCommand (s.setDec (decFeedUnit b s.dec)), rfl, rfl, ?_⟩⟩
  cases hphase : s.dec.phase with
  | idle =>
    rw [if_pos rfl]
    exact decFeedUnit_of_idle b hphase
  | opened =>
    rw [if_neg Phase.noConfusion]
    exact decFeedUnit_of_opened b hphase

/-- A length of any size as `DEC_LEN` reports it (R30, R143). -/
theorem toNat_saturate32_eq_min (n : Nat) : (saturate32 n).toNat = min n (2 ^ 32 - 1) :=
  (BitVec.toNat_ofNat _ 32).trans (Nat.mod_eq_of_lt (by omega))

/-- Settles O34, by the outcomes of finishing a decoding. -/
theorem decFinishReportsTheDecode : Obligations.DecFinishReportsTheDecode := by
  refine ⟨fun imm => decodeCommand_commandWord 0x22 imm, fun s =>
    ⟨completeCommand (s.setDec (decFinishUnit s.params s.dec)), rfl, rfl, ?_⟩⟩
  dsimp only [completeCommand, State.setCmdStatus_dec, State.setDec_dec]
  obtain ⟨hph, e⟩ | ⟨hph, hd, e⟩ | ⟨d, hph, hd, hlong, e⟩ | ⟨d, hph, hd, hcap, e⟩ :=
    decFinishUnit_cases s.params s.dec <;> rw [e]
  · rw [if_pos hph]
    exact ⟨rfl, rfl⟩
  · rw [if_neg (by simp [hph]), hd]
    exact ⟨rfl, rfl, rfl, rfl, bufRead_decOut_of_invalid rfl⟩
  · rw [if_neg (by simp [hph]), hd]
    dsimp only
    rw [if_pos hlong]
    exact ⟨rfl, rfl, rfl, toNat_saturate32_eq_min d.length, bufRead_decOut_of_invalid rfl,
      fun i _ => memRead_nil i⟩
  · rw [if_neg (by simp [hph]), hd]
    dsimp only
    rw [if_neg (Nat.not_lt.mpr hcap)]
    exact ⟨rfl, rfl, rfl, toNat_saturate32_eq_min d.length, fun hwidth =>
      bufRead_decOut_of_written rfl hcap (toNat_saturate32 (by omega)) rfl⟩

/-! ### Encode, then decode (R148) -/

/-- The block after `DEC_START` and one `DEC_FEED` a byte. -/
def decFed (stuffed : List Byte) (s : State) : State :=
  completeCommand (s.setDec { decStartUnit s.dec with inp := stuffed })

/-- An open decoding takes every byte it is fed, in order (R146). -/
theorem execAll_decFeed (stuffed : List Byte) (s : State) {u : DecUnit}
    (hphase : u.phase = .opened) :
    execAll (stuffed.map .decFeed) (completeCommand (s.setDec u)) =
      .next (completeCommand (s.setDec { u with inp := u.inp ++ stuffed })) := by
  induction stuffed generalizing u with
  | nil => rw [List.append_nil]; rfl
  | cons b stuffed ih =>
    have hfeed : exec (.decFeed b) (completeCommand (s.setDec u)) =
        .next (completeCommand (s.setDec { u with inp := u.inp ++ [b] })) := by
      rw [← decFeedUnit_of_opened b hphase]
      rfl
    rw [List.map_cons, execAll_cons hfeed, List.append_cons u.inp b stuffed]
    exact ih (u := { u with inp := u.inp ++ [b] }) hphase

/-- The commands of `DECODE` end as the `DEC_FINISH` after all the feeds does. -/
theorem execAll_decodeProgram (stuffed : List Byte) {s t : State}
    (h : exec .decFinish (decFed stuffed s) = .next t) :
    execAll (decodeProgram stuffed) s = .next t := by
  have hstart : exec .decStart s = .next (completeCommand (s.setDec (decStartUnit s.dec))) := rfl
  rw [decodeProgram, execAll_cons hstart, execAll_append (execAll_decFeed stuffed s rfl)]
  exact execAll_cons h

/-- `DECODE` of an encoding of `x`, where `DEC_CAP` has room for `x`, ends with `x` in `DEC_OUT`. -/
theorem decodeProgram_stuffEncode (s : State) {x : List Byte} (hcap : x.length ≤ s.params.decCap)
    (hwidth : s.params.decCap < 2 ^ 32 - 1) :
    ∃ u, execAll (decodeProgram (stuffEncode x)) s = .next u ∧ u.dec.status = .ok ∧
      u.dec.len.toNat = x.length ∧ ∀ i, bufRead u .decOut i = x[i]? := by
  obtain ⟨u, hexec, -, -, hout⟩ := decFinishReportsTheDecode.2 (decFed (stuffEncode x) s)
  have hopen : (decFed (stuffEncode x) s).dec.phase ≠ .idle := Phase.noConfusion
  have hdecode : stuffDecode (decFed (stuffEncode x) s).dec.inp = .ok x := stuffDecode_stuffEncode x
  have hfits : ¬ (decFed (stuffEncode x) s).params.decCap < x.length := Nat.not_lt.mpr hcap
  rw [if_neg hopen, hdecode] at hout
  dsimp only at hout
  rw [if_neg hfits] at hout
  obtain ⟨-, hstatus, hlen, hread⟩ := hout
  have hshort := hcap.trans_lt hwidth
  exact ⟨u, execAll_decodeProgram _ hexec, hstatus, hlen.trans (Nat.min_eq_left hshort.le),
    hread hshort⟩

/-- `ENCODE x`, where `ENC_CAP` has room for the worst case of `x`, ends with the encoding of `x` in
`ENC_OUT` and the parameters as they were. -/
theorem encodeProgram_of_fits (s : State) {x : List Byte} (hwidth : s.params.encCap < 65536)
    (hfit : worstCase x.length ≤ s.params.encCap) :
    ∃ t, execAll (encodeProgram x) s = .next t ∧ t.params = s.params ∧
      t.enc.len.toNat = (stuffEncode x).length ∧
      ∀ i, bufRead t .encOut i = (stuffEncode x)[i]? := by
  have hone : [x].flatten = x := List.flatten_singleton
  obtain ⟨t, hexec, hframe, -, -, -, hlen, hread⟩ :=
    encodingDoesNotDependOnTheSplit s [x] hwidth (hone.symm ▸ hfit)
  rw [hone] at hlen hread
  rw [List.map_singleton, List.flatten_singleton] at hexec
  exact ⟨t, hexec, by rw [hframe], hlen, hread⟩

/-- Reading every index of a list in order gives the list. -/
theorem map_range_of_forall_getElem? {y : List Byte} {read : Nat → Option Byte}
    (h : ∀ i, read i = y[i]?) : (List.range y.length).map read = y.map some := by
  refine List.ext_getElem (by simp) fun i hi _ => ?_
  rw [List.length_map, List.length_range] at hi
  rw [List.getElem_map, List.getElem_map, List.getElem_range, h, List.getElem?_eq_getElem hi]

/-- Settles O35: `ENC_OUT` holds the encoding of x, which decodes to x (R114 (c)). -/
theorem encodeThenDecodeReturnsTheInput : Obligations.EncodeThenDecodeReturnsTheInput := by
  intro s x hwidths hdecCap hencCap
  obtain ⟨-, hencWidth, hdecWidth, -⟩ := of_decide_eq_true hwidths
  obtain ⟨t, hencode, hparams, hlen, hread⟩ := encodeProgram_of_fits s hencWidth hencCap
  rw [← hparams] at hdecCap hdecWidth
  obtain ⟨u, hdecode, hdecoded⟩ := decodeProgram_stuffEncode t hdecCap hdecWidth
  exact ⟨t, stuffEncode x, u, hencode, hlen.symm ▸ map_range_of_forall_getElem? hread, hdecode,
    hdecoded⟩

end Sys2Proof.Machine

/-! Proofs of the statements on 42_checksum.md: the checksum commands (R172, R173), verification
(R175) under (P3), and frames received whole, under (P4) with one payload byte changed (R217 to
R219). -/

namespace Sys2Proof.Machine

/-! ### The checksum commands (R170, R172, R173) -/

/-- Settles O36, by what `CKS_INIT` writes. -/
theorem cksInitLoadsTheInitialValue : Obligations.CksInitLoadsTheInitialValue := fun s =>
  ⟨completeCommand (s.setCks s.params.cksAlg.initVal), rfl, rfl, rfl⟩

/-- The checksum of a concatenation goes on from the checksum of its first part (R170). -/
theorem checksum_append (alg : CksAlg) (a b : List Byte) :
    checksum alg (a ++ b) = b.foldl (cksStep alg) (checksum alg a) :=
  List.foldl_append

/-- Feeds fold their bytes, in order, into the running checksum (R173). -/
theorem execAll_cksFeed (x : List Byte) (s : State) (c : Word) :
    execAll (x.map .cksFeed) (completeCommand (s.setCks c)) =
      .next (completeCommand (s.setCks (x.foldl (cksStep s.params.cksAlg) c))) := by
  induction x generalizing c with
  | nil => rfl
  | cons b x ih => exact ih (cksStep s.params.cksAlg c b)

/-- Settles O37: the feeds after `CKS_INIT` fold x from the initial value. -/
theorem cksFeedsFoldTheirBytes : Obligations.CksFeedsFoldTheirBytes :=
  ⟨fun alg a b => ⟨rfl, checksum_append alg a b⟩, fun b => decodeCommand_commandWord 0x31 b,
    fun _ _ => rfl, fun x s => execAll_cksFeed x s s.params.cksAlg.initVal⟩

/-! ### Little-endian fields (R63) -/

theorem toNat_u16le (b0 b1 : Byte) : (u16le b0 b1).toNat = b0.toNat + 256 * b1.toNat := by
  rw [u16le, BitVec.toNat_append, ← Nat.shiftLeft_add_eq_or_of_lt b0.isLt, Nat.shiftLeft_eq]
  omega

theorem u16le_extractLsb' (c : Word) : u16le (c.extractLsb' 0 8) (c.extractLsb' 8 8) = c := by
  exact (BitVec.extractLsb'_append_extractLsb'_eq_extractLsb' (Nat.zero_add 8).symm).trans
    BitVec.extractLsb'_eq_self

theorem le16_injective : Function.Injective le16 := fun c c' h => by
  obtain ⟨hlow, hhigh⟩ : c.extractLsb' 0 8 = c'.extractLsb' 0 8 ∧
      c.extractLsb' 8 8 = c'.extractLsb' 8 8 := by simpa [le16] using h
  rw [← u16le_extractLsb' c, hlow, hhigh, u16le_extractLsb']

theorem le16_u16le (b0 b1 : Byte) : le16 (u16le b0 b1) = [b0, b1] := by
  rw [le16, u16le, BitVec.extractLsb'_append_eq_right, BitVec.extractLsb'_append_eq_left]

@[simp] theorem length_le16 (v : Word) : (le16 v).length = 2 := rfl

theorem checksumField_append_le16 (x : List Byte) (c : Word) :
    checksumField (x ++ le16 c) = c := by
  have h0 : (x ++ le16 c).getD x.length 0 = c.extractLsb' 0 8 := by simp [le16]
  have h1 : (x ++ le16 c).getD (x.length + 1) 0 = c.extractLsb' 8 8 := by simp [le16]
  rw [checksumField, List.length_append, length_le16, Nat.add_sub_cancel,
    Nat.add_sub_assoc (by omega), h0, h1, u16le_extractLsb']

/-! ### Verification (R175) -/

/-- Bytes followed by a checksum field pass exactly when there are enough of them and the field is
their checksum. -/
theorem verifies_append_le16 (alg : CksAlg) (x : List Byte) (c : Word) :
    verifies alg (x ++ le16 c) = true ↔ 2 ≤ x.length ∧ checksum alg x = c := by
  rw [verifies, checksumMatches, checksumField_append_le16]
  simp [Config.ovh]

/-- A passing frame is some bytes followed by their checksum. -/
theorem eq_append_checksum_of_verifies {alg : CksAlg} {d : List Byte} (h : verifies alg d = true) :
    ∃ x, d = x ++ le16 (checksum alg x) := by
  have hlen : 4 ≤ d.length := of_decide_eq_true (Bool.and_eq_true_iff.mp h).1
  obtain ⟨b0, b1, hfield⟩ : ∃ b0 b1, d.drop (d.length - 2) = [b0, b1] :=
    List.length_eq_two.mp (by rw [List.length_drop]; omega)
  have hd : d = d.take (d.length - 2) ++ le16 (u16le b0 b1) := by
    rw [le16_u16le, ← hfield, List.take_append_drop]
  rw [hd, verifies_append_le16] at h
  obtain ⟨-, hcks⟩ := h
  exact ⟨_, hcks ▸ hd⟩

/-- Settles O38: the two bytes of the field are compared as one number, low byte first. -/
theorem verificationAcceptsExactlyTheMatchingChecksum :
    Obligations.VerificationAcceptsExactlyTheMatchingChecksum := by
  refine ⟨fun alg d => ?_, fun alg payload seq c => ?_⟩
  · rw [← toNat_u16le, BitVec.toNat_inj, verifies, Bool.and_eq_true_iff, decide_eq_true_iff,
      checksumMatches, beq_iff_eq]
    rfl
  · rw [verifies_append_le16, and_iff_right (by simp), eq_comm]

/-! ### Bits of a list (P3, P4) -/

theorem bitAt_append_left {x : List Byte} (y : List Byte) {k : Nat} (h : k / 8 < x.length) :
    bitAt (x ++ y) k = bitAt x k := by
  rw [bitAt, bitAt, List.getD_append _ _ _ _ h]

theorem bitAt_append_right (x y : List Byte) (k : Nat) :
    bitAt (x ++ y) (8 * x.length + k) = bitAt y k := by
  rw [bitAt, bitAt, Nat.mul_add_div (by omega), Nat.mul_add_mod,
    List.getD_append_right _ _ _ _ (by omega), Nat.add_sub_cancel_left]

theorem bitAt_of_le {x : List Byte} {k : Nat} (h : x.length ≤ k / 8) : bitAt x k = false := by
  rw [bitAt, List.getD_eq_default _ _ h]
  exact BitVec.getMsbD_zero

/-- Lists of one length with the same bits are the same. -/
theorem eq_of_bitAt_eq {x y : List Byte} (hlen : x.length = y.length)
    (h : ∀ k, bitAt x k = bitAt y k) : x = y := by
  refine List.ext_getElem hlen fun i hx hy => BitVec.eq_of_getMsbD_eq fun k hk => ?_
  have := h (8 * i + k)
  simpa [bitAt, Nat.mul_add_div, Nat.div_eq_of_lt hk, Nat.mod_eq_of_lt hk, hx, hy] using this

/-- The lists differ in exactly one bit. -/
def DifferInOneBit (x x' : List Byte) : Prop := ∃ k, ∀ j, bitAt x j ≠ bitAt x' j ↔ j = k

theorem DifferInOneBit.ne {x x' : List Byte} (h : DifferInOneBit x x') : x ≠ x' := by
  rintro rfl
  obtain ⟨k, hk⟩ := h
  exact (hk k).mpr rfl rfl

/-- The one bit in which two concatenations differ lies in their first parts or in their second. -/
theorem DifferInOneBit.of_append {x x' y y' : List Byte} (hx : x.length = x'.length)
    (hy : y.length = y'.length) (h : DifferInOneBit (x ++ y) (x' ++ y')) :
    (DifferInOneBit x x' ∧ y = y') ∨ x = x' := by
  obtain ⟨k, hk⟩ := h
  have hsame {j : Nat} (hj : j ≠ k) : bitAt (x ++ y) j = bitAt (x' ++ y') j :=
    not_not.mp (mt (hk j).mp hj)
  have hleft {j : Nat} (hj : j / 8 < x.length) :
      bitAt (x ++ y) j = bitAt x j ∧ bitAt (x' ++ y') j = bitAt x' j :=
    ⟨bitAt_append_left y hj, bitAt_append_left y' (hx ▸ hj)⟩
  have hpast {j : Nat} (hj : ¬ j / 8 < x.length) : bitAt x j = bitAt x' j := by
    rw [bitAt_of_le (Nat.not_lt.mp hj), bitAt_of_le (hx ▸ Nat.not_lt.mp hj)]
  by_cases hcov : k / 8 < x.length
  · refine .inl ⟨⟨k, fun j => ?_⟩, eq_of_bitAt_eq hy fun j => ?_⟩
    · by_cases hj : j / 8 < x.length
      · rw [← hk j, (hleft hj).1, (hleft hj).2]
      · exact iff_of_false (not_not.mpr (hpast hj)) (by rintro rfl; exact hj hcov)
    · rw [← bitAt_append_right x y, ← bitAt_append_right x' y', ← hx]
      exact hsame (by omega)
  · refine .inr (eq_of_bitAt_eq hx fun j => ?_)
    by_cases hj : j / 8 < x.length
    · rw [← (hleft hj).1, ← (hleft hj).2]
      exact hsame (by rintro rfl; exact hcov hj)
    · exact hpast hj

/-- Settles O39. Were both frames to pass, each would be some bytes and their checksum: a change in
the bytes covered changes their checksum and so the field, and a change in the field alone leaves
the bytes, and so the checksum, as they were. -/
theorem aSingleFlippedBitFailsVerification : Obligations.ASingleFlippedBitFailsVerification := by
  intro alg maxMsg d d' hsensitive hlong hpass hlen hflip
  refine Bool.eq_false_iff.mpr fun hpass' => ?_
  obtain ⟨x, hd⟩ := eq_append_checksum_of_verifies hpass
  obtain ⟨x', hd'⟩ := eq_append_checksum_of_verifies hpass'
  have hx : d.length = x.length + 2 := by rw [hd, List.length_append, length_le16]
  have hx' : d'.length = x'.length + 2 := by rw [hd', List.length_append, length_le16]
  have hdiffer : DifferInOneBit d d' := hflip
  rw [hd, hd'] at hdiffer
  obtain ⟨hcovered, hfield⟩ | hsame := hdiffer.of_append (by omega) (length_le16 _)
  · exact hsensitive x x' (by omega) (by omega) hcovered (le16_injective hfield).symm
  · exact hdiffer.ne (by rw [hsame])

/-! ### Receiving a whole frame (R210 to R217) -/

/-- A line byte for which `RXBUF` has room joins what has accumulated (R211). -/
theorem accumulate_of_fits {p : Params} (b : Byte) {u : RxUnit} (hwidth : p.rxbufSize < 65536)
    (hfit : u.cnt.toNat + 1 < p.rxbufSize) (hbuf : holdsExactly u.buf u.cnt.toNat) :
    ∃ cnt buf, accumulate p b u = { u with cnt := cnt, buf := buf } ∧
      cnt.toNat = u.cnt.toNat + 1 ∧ holdsExactly buf cnt.toNat ∧
      accumulated { u with cnt := cnt, buf := buf } = accumulated u ++ [b] := by
  have hcnt : (u.cnt + 1).toNat = u.cnt.toNat + 1 :=
    BitVec.toNat_add_of_lt (show u.cnt.toNat + 1 < 65536 by omega)
  obtain ⟨hfull, -⟩ | ⟨-, e⟩ := accumulate_cases p b u
  · omega
  · refine ⟨_, _, e, hcnt, ?_, ?_⟩
    · rw [hcnt]
      exact holdsExactly_bufWrite b (by omega) hbuf
    · rw [accumulated, hcnt]
      exact bufBytes_bufWrite_next .rxBuf b (by omega) hbuf

/-- Line bytes other than the delimiter, for which `RXBUF` has room, join what has accumulated, in
order; but for `CMD_STATUS` nothing else changes. -/
theorem execAll_rxByte_of_fits {x : List Byte} (hx : (0 : Byte) ∉ x) {s : State}
    (hwidth : s.params.rxbufSize < 65536) (hfit : s.rx.cnt.toNat + x.length < s.params.rxbufSize)
    (hbuf : holdsExactly s.rx.buf s.rx.cnt.toNat) :
    ∃ status cnt buf, execAll (x.map .rxByte) s =
        .next { s with cmdStatus := status, rx := { s.rx with cnt := cnt, buf := buf } } ∧
      accumulated { s.rx with cnt := cnt, buf := buf } = accumulated s.rx ++ x := by
  induction x generalizing s with
  | nil => exact ⟨s.cmdStatus, s.rx.cnt, s.rx.buf, rfl, (List.append_nil _).symm⟩
  | cons b x ih =>
    obtain ⟨hb, hx⟩ := not_or.mp (mt List.mem_cons.mpr hx)
    rw [List.length_cons] at hfit
    obtain ⟨cnt, buf, hacc, hcnt, hholds, hbytes⟩ :=
      accumulate_of_fits b hwidth (u := s.rx) (by omega) hbuf
    have hexec : exec (.rxByte b) s =
        .next (completeCommand (s.setRx { s.rx with cnt := cnt, buf := buf })) := by
      rw [← hacc, ← ingest_of_ne (Ne.symm hb)]
      rfl
    obtain ⟨status, cnt', buf', hrun, hbytes'⟩ :=
      ih hx (s := completeCommand (s.setRx { s.rx with cnt := cnt, buf := buf })) hwidth
        (show cnt.toNat + x.length < s.params.rxbufSize by omega) hholds
    refine ⟨status, cnt', buf', (execAll_cons hexec).trans hrun, hbytes'.trans ?_⟩
    rw [completeCommand_rx, State.setRx_rx, hbytes, ← List.append_cons]

/-- A completed frame that decodes within `DEC_CAP` is good and delivered, or a checksum failure, as
verification decides (R216, R217). -/
theorem completeFrame_of_decoded {s : State} {d : List Byte}
    (hdecode : stuffDecode (accumulated s.rx) = .ok d) (hcap : d.length ≤ s.params.decCap) :
    completeFrame s =
      if verifies s.params.cksAlg d = true then
        (s.setRx { s.rx with cnt := 0, buf := [], good := countUp s.rx.good }).deliver
          (d.take (d.length - Config.ovh))
      else s.setRx { s.rx with cnt := 0, buf := [], cksFail := countUp s.rx.cksFail } := by
  obtain ⟨hfailed, -⟩ | ⟨d', hd', -, hv, e⟩ | ⟨d', hd', -, hv, e⟩ := completeFrame_cases s
  · obtain hformat | ⟨d', hd', hlong⟩ := hfailed
    · cases hdecode.symm.trans hformat
    · cases hdecode.symm.trans hd'
      omega
  · cases hdecode.symm.trans hd'
    rw [e, if_neg (by simp [hv])]
  · cases hdecode.symm.trans hd'
    rw [e, if_pos hv]

/-- The stuffed form of `w` and a delimiter, received into an empty `RXBUF` that has room for them,
count and deliver as verification of `w` decides. -/
theorem execAll_receive {s : State} {w : List Byte} (hwidths : s.params.fitsWidths = true)
    (hcarries : s.params.carriesEveryFrame = true) (hw : w.length ≤ s.params.maxMsg + Config.ovh)
    (hcnt : s.rx.cnt = 0) (hbuf : s.rx.buf = []) :
    execAll ((stuffEncode w ++ [0]).map .rxByte) s =
      .next (if verifies s.params.cksAlg w = true then
          { s with cmdStatus := .ok, rx := { s.rx with good := s.rx.good + 1 }
                   deliveries := s.deliveries ++ [w.take (w.length - Config.ovh)] }
        else { s with cmdStatus := .ok, rx := { s.rx with cksFail := s.rx.cksFail + 1 } }) := by
  obtain ⟨-, -, -, hwidth⟩ := of_decide_eq_true hwidths
  obtain ⟨hroom, hcap⟩ := of_decide_eq_true hcarries
  have hzero : s.rx.cnt.toNat = 0 := congrArg BitVec.toNat hcnt
  have hfit : (stuffEncode w).length < s.params.rxbufSize :=
    ((length_stuffEncode_le w).trans (worstCase_mono hw)).trans_lt hroom
  obtain ⟨status, cnt, buf, hrun, hbytes⟩ :=
    execAll_rxByte_of_fits (zero_notMem_stuffEncode w) hwidth (by rwa [hzero, Nat.zero_add])
      (by rw [hzero, hbuf]; exact holdsExactly_nil)
  have hempty : accumulated s.rx = [] := by rw [accumulated, hzero]; rfl
  rw [hempty, List.nil_append] at hbytes
  have hframe := completeFrame_of_decoded
    (s := { s with cmdStatus := status, rx := { s.rx with cnt := cnt, buf := buf } })
    ((congrArg stuffDecode hbytes).trans (stuffDecode_stuffEncode w)) (hw.trans hcap)
  have hdelimiter (t : State) :
      execAll ([0].map .rxByte) t = .next (completeCommand (completeFrame t)) := rfl
  rw [List.map_append, execAll_append hrun, hdelimiter, hframe]
  split <;>
    simp [completeCommand, State.setCmdStatus, State.setRx, State.deliver, countUp, hcnt, hbuf]

/-- Settles O51: a built frame passes verification. -/
theorem receivingABuiltFrameDeliversItsPayload :
    Obligations.ReceivingABuiltFrameDeliversItsPayload := by
  rintro s payload seq _ hwidths hcarries hlen hcnt hbuf rfl
  have hframe : (wireFrame s.params.cksAlg payload seq).length = payload.length + Config.ovh := by
    rw [wireFrame, List.append_assoc, List.length_append]
    rfl
  have hpass : verifies s.params.cksAlg (wireFrame s.params.cksAlg payload seq) = true :=
    (verificationAcceptsExactlyTheMatchingChecksum.2 _ payload seq _).mpr rfl
  have hbody : (wireFrame s.params.cksAlg payload seq).take payload.length = payload := by
    rw [wireFrame, List.append_assoc, List.take_left]
  rw [buildFrame, execAll_receive hwidths hcarries (by omega) hcnt hbuf, if_pos hpass, hframe,
    Nat.add_sub_cancel, hbody]

/-- (P4) covers a change of one byte: its bits are eight in a row. -/
theorem checksum_set_ne {maxMsg : Nat} {alg : CksAlg} (hsensitive : BurstSensitive maxMsg alg)
    {x : List Byte} (hlen : x.length ≤ maxMsg + 2) {k : Nat} {b : Byte} (hk : k < x.length)
    (hb : x[k]? ≠ some b) : checksum alg (x.set k b) ≠ checksum alg x := by
  refine hsensitive x (x.set k b) hlen List.length_set (fun hsame => hb ?_) ⟨8 * k, fun j hj => ?_⟩
  · rw [← hsame, List.getElem?_set_self hk]
  · have hbyte : j / 8 = k := by
      by_contra hne
      refine hj ?_
      rw [bitAt, bitAt, List.getD_eq_getElem?_getD, List.getD_eq_getElem?_getD,
        List.getElem?_set_ne (Ne.symm hne)]
    omega

/-- Settles O52: the changed frame carries the checksum of the payload as it was, which (P4) says is
not that of the changed one. -/
theorem aCorruptedPayloadByteIsCaught : Obligations.ACorruptedPayloadByteIsCaught := by
  rintro s payload seq k b _ hsensitive hwidths hcarries hlen hcnt hbuf hk hb rfl
  have hcks : checksum s.params.cksAlg (payload.set k b ++ le16 seq) ≠
      genCks s.params.cksAlg payload seq := by
    rw [← List.set_append_left _ _ hk]
    refine checksum_set_ne hsensitive ?_ ?_ ?_
    · simpa using hlen
    · rw [List.length_append]
      omega
    · rwa [List.getElem?_append_left hk]
  have hfail := mt
    (verificationAcceptsExactlyTheMatchingChecksum.2 _ (payload.set k b) seq _).mp hcks.symm
  rw [execAll_receive hwidths hcarries (by simpa [Config.ovh] using hlen) hcnt hbuf, if_neg hfail]

end Sys2Proof.Machine

/-! Proofs of the statements on 43_frame_tx.md: staging a payload (R190, R191), sending it (R192 to
R195, R198), the size of a built frame (R196), and successive sends (R197). -/

namespace Sys2Proof.Machine

/-! ### Sending the staged payload (R192 to R195) -/

/-- Settles O43, by the outcomes of a send. -/
theorem txSendOutcomes : Obligations.TxSendOutcomes := by
  refine ⟨fun imm => decodeCommand_commandWord 0x42 imm, fun s =>
    ⟨completeCommand (sendStaged s), rfl, ?_⟩⟩
  obtain ⟨hlong, e⟩ | ⟨hlen, hfull, e⟩ | ⟨hlen, hroom, e⟩ := sendStaged_cases s <;> rw [e]
  · exact ⟨fun _ => rfl, fun hlen => absurd hlong (Nat.not_lt.mpr hlen)⟩
  · refine ⟨fun hlong => absurd hlong (Nat.not_lt.mpr hlen), ?_⟩
    rintro - _ rfl
    exact ⟨fun _ => rfl, fun hroom => absurd hfull (Nat.not_lt.mpr hroom)⟩
  · refine ⟨fun hlong => absurd hlong (Nat.not_lt.mpr hlen), ?_⟩
    rintro - _ rfl
    exact ⟨fun hfull => absurd hfull (Nat.not_lt.mpr hroom), fun _ => rfl⟩

/-- Settles O44: the first of the three outcomes. -/
theorem oversizedSendIsCountedAndPushesNothing :
    Obligations.OversizedSendIsCountedAndPushesNothing := by
  intro s hlong
  obtain ⟨t, hexec, hoversize, -⟩ := txSendOutcomes.2 s
  obtain rfl := hoversize hlong
  exact ⟨_, hexec, rfl, rfl, rfl, rfl⟩

/-- Settles O48: of the three outcomes only the last pushes or counts a good frame, and that frame
fits the free space shown. -/
theorem framesAreQueuedWholeOrNotAtAll : Obligations.FramesAreQueuedWholeOrNotAtAll := by
  intro s trueFree hduty
  refine ⟨completeCommand (sendStaged s), rfl, ?_⟩
  obtain ⟨-, e⟩ | ⟨-, -, e⟩ | ⟨-, hroom, e⟩ := sendStaged_cases s <;> rw [e]
  · exact .inl ⟨rfl, rfl⟩
  · exact .inl ⟨rfl, rfl⟩
  · exact .inr ⟨rfl, hroom.trans hduty, rfl⟩

/-! ### The size of a built frame (R196) -/

theorem length_wireFrame (alg : CksAlg) (payload : List Byte) (seq : Word) :
    (wireFrame alg payload seq).length = payload.length + Config.ovh := by
  rw [wireFrame, List.append_assoc, List.length_append]
  rfl

/-- Settles O45: the body is the encoding of four bytes more than the payload, within the worst case
of R111. -/
theorem builtFramesFitTheBound : Obligations.BuiltFramesFitTheBound := by
  intro alg payload seq maxMsg hlen
  have hbody : (stuffEncode (wireFrame alg payload seq)).length ≤
      worstCase (payload.length + Config.ovh) :=
    length_wireFrame alg payload seq ▸ length_stuffEncode_le _
  have hmono : worstCase (payload.length + Config.ovh) ≤ worstCase (maxMsg + Config.ovh) :=
    worstCase_mono (Nat.add_le_add_right hlen _)
  refine ⟨?_, ?_, Nat.succ_le_succ hmono, rfl⟩
  · rintro p hwf rfl
    exact (hbody.trans hmono).trans (of_decide_eq_true hwf).1
  · rw [buildFrame, List.length_append]
    exact Nat.succ_le_succ hbody

/-! ### Staging a payload (R190, R191) -/

/-- Settles O40, by what `TX_BEGIN` writes. -/
theorem txBeginEmptiesTheStage : Obligations.TxBeginEmptiesTheStage :=
  ⟨fun imm => decodeCommand_commandWord 0x40 imm, fun s =>
    ⟨completeCommand (s.setTx (txBeginUnit s.tx)), rfl, rfl, rfl, rfl⟩⟩

theorem memRead_bufWrite_of_lt {size i : Nat} (m : Memory) (b : Byte) (h : i < size) (a : Nat) :
    memRead (bufWrite size m i b) a = if a = i then some b else memRead m a := by
  rw [bufWrite, if_pos h]
  split
  · next ha => rw [ha, memRead_memWrite_same]
  · next ha => exact memRead_memWrite_other m b ha

/-- Settles O41, by the outcomes of a pushed byte. -/
theorem txPushAppendsOrSaturates : Obligations.TxPushAppendsOrSaturates := by
  refine ⟨fun imm => decodeCommand_commandWord 0x41 imm, fun b s =>
    ⟨completeCommand (s.setTx (txPushUnit s.params b s.tx)), rfl, rfl, ?_⟩⟩
  rw [completeCommand_tx, State.setTx_tx]
  obtain ⟨hroom, e⟩ | ⟨hfull, e⟩ | ⟨hlong, e⟩ := txPushUnit_cases s.params b s.tx <;> rw [e]
  · rw [if_pos hroom]
    exact ⟨rfl, memRead_bufWrite_of_lt s.tx.pay b hroom⟩
  · rw [if_neg hfull.not_lt, if_pos hfull]
  · rw [if_neg hlong.not_gt, if_neg hlong.ne']

/-- The framer after pushes of a list of bytes. -/
def txPushAll (p : Params) (x : List Byte) (u : TxUnit) : TxUnit :=
  x.foldl (fun u b => txPushUnit p b u) u

theorem txPushAll_cons (p : Params) (b : Byte) (x : List Byte) (u : TxUnit) :
    txPushAll p (b :: x) u = txPushAll p x (txPushUnit p b u) := rfl

theorem execAll_txPush (x : List Byte) (s : State) (u : TxUnit) :
    execAll (x.map .txPush) (completeCommand (s.setTx u)) =
      .next (completeCommand (s.setTx (txPushAll s.params x u))) := by
  induction x generalizing u with
  | nil => rfl
  | cons b x ih => exact ih (txPushUnit s.params b u)

/-- Pushes write `TX_LEN` and `TXPAY` only. -/
theorem txPushAll_writes (p : Params) (x : List Byte) (u : TxUnit) :
    ∃ len pay, txPushAll p x u = { u with len := len, pay := pay } := by
  induction x generalizing u with
  | nil => exact ⟨u.len, u.pay, rfl⟩
  | cons b x ih =>
    rw [txPushAll_cons]
    obtain ⟨-, e⟩ | ⟨-, e⟩ | ⟨-, e⟩ := txPushUnit_cases p b u <;> rw [e]
    · exact ih { u with len := u.len + 1, pay := bufWrite p.maxMsg u.pay u.len.toNat b }
    · exact ih { u with len := BitVec.ofNat 16 (p.maxMsg + 1) }
    · exact ih u

section
variable {p : Params} (hwidth : p.maxMsg + 1 < 65536)
include hwidth

/-- A pushed byte counts, up to `MAX_MSG` + 1. -/
theorem toNat_len_txPushUnit (b : Byte) {u : TxUnit} (hcap : u.len.toNat ≤ p.maxMsg + 1) :
    (txPushUnit p b u).len.toNat = min (u.len.toNat + 1) (p.maxMsg + 1) := by
  obtain ⟨hroom, e⟩ | ⟨hfull, e⟩ | ⟨hlong, e⟩ := txPushUnit_cases p b u <;> rw [e]
  · rw [min_eq_left (by omega)]
    exact BitVec.toNat_add_of_lt (show u.len.toNat + 1 < 65536 by omega)
  · rw [hfull, min_self]
    exact (BitVec.toNat_ofNat _ 16).trans (Nat.mod_eq_of_lt hwidth)
  · omega

theorem toNat_len_txPushAll (x : List Byte) {u : TxUnit} (hcap : u.len.toNat ≤ p.maxMsg + 1) :
    (txPushAll p x u).len.toNat = min (u.len.toNat + x.length) (p.maxMsg + 1) := by
  induction x generalizing u with
  | nil => exact (min_eq_left hcap).symm
  | cons b x ih =>
    have hlen := toNat_len_txPushUnit hwidth b hcap
    rw [txPushAll_cons, ih (by omega), hlen, List.length_cons]
    omega

/-- Pushed bytes for which `TXPAY` has room join the staged payload, in order. -/
theorem stagedPayload_txPushAll (x : List Byte) {u : TxUnit}
    (hfit : u.len.toNat + x.length ≤ p.maxMsg) (hpay : holdsExactly u.pay u.len.toNat) :
    stagedPayload (txPushAll p x u) = stagedPayload u ++ x := by
  induction x generalizing u with
  | nil => exact (List.append_nil _).symm
  | cons b x ih =>
    rw [List.length_cons] at hfit
    have hroom : u.len.toNat < p.maxMsg := by omega
    have hpush : txPushUnit p b u =
        { u with pay := bufWrite p.maxMsg u.pay u.len.toNat b, len := u.len + 1 } := if_pos hroom
    have hlen : (u.len + 1).toNat = u.len.toNat + 1 :=
      BitVec.toNat_add_of_lt (show u.len.toNat + 1 < 65536 by omega)
    have hstaged : stagedPayload (txPushUnit p b u) = stagedPayload u ++ [b] := by
      rw [hpush, stagedPayload, hlen]
      exact bufBytes_bufWrite_next .txPay b hroom hpay
    rw [txPushAll_cons, ih, hstaged, ← List.append_cons]
    · rw [hpush, hlen]
      omega
    · rw [hpush, hlen]
      exact holdsExactly_bufWrite b hroom hpay

end

/-- Settles O42: the pushes start from the empty stage that `TX_BEGIN` leaves. -/
theorem pushedBytesAreTheStagedPayload : Obligations.PushedBytesAreTheStagedPayload := by
  intro s x hwidths
  obtain ⟨hwidth, -⟩ := of_decide_eq_true hwidths
  have hempty : (txBeginUnit s.tx).len.toNat = 0 := rfl
  have hlen := toNat_len_txPushAll hwidth x (hempty.trans_le (Nat.zero_le _))
  rw [hempty, Nat.zero_add] at hlen
  refine ⟨_, execAll_txPush x s (txBeginUnit s.tx), rfl, ?_, hlen, fun hfit => ?_⟩
  · obtain ⟨len, pay, e⟩ := txPushAll_writes s.params x (txBeginUnit s.tx)
    rw [completeCommand_tx, State.setTx_tx, e]
    rfl
  · exact stagedPayload_txPushAll hwidth x (by rwa [hempty, Nat.zero_add]) holdsExactly_nil

/-! ### Successive sends (R194, R197) -/

@[simp] theorem sendStaged_port (s : State) : (sendStaged s).port = s.port := by
  obtain ⟨u, e | ⟨frame, e⟩⟩ := sendStaged_writes s <;> simp [e]

@[simp] theorem sendStaged_scan (s : State) : (sendStaged s).scan = s.scan := by
  obtain ⟨u, e | ⟨frame, e⟩⟩ := sendStaged_writes s <;> simp [e]

/-- A send that passes the oversize check uses one sequence number, keeps the stage, and queues the
frame exactly when it fits. -/
theorem sendStaged_of_len_le {s : State} (h : s.tx.len.toNat ≤ s.params.maxMsg) :
    let frame := buildFrame s.params.cksAlg (stagedPayload s.tx) s.tx.seq
    (sendStaged s).tx.seq = s.tx.seq + 1 ∧ (sendStaged s).tx.len = s.tx.len ∧
      (sendStaged s).tx.pay = s.tx.pay ∧
      (sendStaged s).txOut =
        s.txOut ++ (if frame.length ≤ s.txqFree then [frame] else []).flatten := by
  intro frame
  obtain ⟨hlong, -⟩ | ⟨-, hfull, e⟩ | ⟨-, hroom, e⟩ := sendStaged_cases s
  · exact absurd h (Nat.not_le.mpr hlong)
  · rw [e, if_neg (Nat.not_le.mpr hfull)]
    exact ⟨rfl, rfl, rfl, (List.append_nil _).symm⟩
  · rw [e, if_pos hroom, List.flatten_singleton]
    exact ⟨rfl, rfl, rfl, rfl⟩

/-- A step that meets such a `TX_SEND` keeps the stage and queues the frame exactly when it fits the
free space shown with the command. -/
theorem step_txSend_of_len_le {s : State} {free : Nat} {inputs : List Input}
    (hidle : scanActive s.scan = false) (hport : s.port = .command 0x4200 free :: inputs)
    (hlen : s.tx.len.toNat ≤ s.params.maxMsg) :
    let frame := buildFrame s.params.cksAlg (stagedPayload s.tx) s.tx.seq
    ∃ t, step s = .next t ∧ scanActive t.scan = false ∧ t.port = inputs ∧ t.params = s.params ∧
      t.tx.seq = s.tx.seq + 1 ∧ t.tx.len = s.tx.len ∧ stagedPayload t.tx = stagedPayload s.tx ∧
      t.txOut = s.txOut ++ (if frame.length ≤ free then [frame] else []).flatten := by
  obtain ⟨hseq, hkeptLen, hkeptPay, hout⟩ :=
    sendStaged_of_len_le (s := (s.setPort inputs).setTxqFree free) hlen
  refine ⟨completeCommand (sendStaged ((s.setPort inputs).setTxqFree free)),
    stepRunsTheDecodedCommand s 0x4200 free inputs .txSend hidle hport rfl, by simpa using hidle,
    by simp, by simp, hseq, hkeptLen, ?_, hout⟩
  rw [stagedPayload, completeCommand_tx, hkeptLen, hkeptPay]
  rfl

/-- Settles O47, by induction on the sends: each leaves a state from which the others carry on with
the next number. -/
theorem successiveSendsCarrySuccessiveNumbers :
    Obligations.SuccessiveSendsCarrySuccessiveNumbers := by
  intro s frees inputs hidle hport hlen
  induction frees generalizing s with
  | nil => exact ⟨s, rfl, hport, (BitVec.add_zero _).symm, rfl, rfl, (List.append_nil _).symm⟩
  | cons free frees ih =>
    obtain ⟨u, hstep, huidle, huport, hparams, hseq, hulen, hstaged, hout⟩ :=
      step_txSend_of_len_le hidle hport hlen
    obtain ⟨t, hrun, htport, htseq, htlen, htstaged, htout⟩ :=
      ih u huidle huport (by rwa [hulen, hparams])
    refine ⟨t, (run_succ_of_step hstep _).trans hrun, htport, ?_, htlen.trans hulen,
      htstaged.trans hstaged, ?_⟩
    · rw [htseq, hseq, List.length_cons, BitVec.ofNat_add, BitVec.add_assoc, BitVec.add_comm 1]
      rfl
    · rw [htout, hout, hparams, hstaged, hseq, List.append_assoc, ← List.flatten_append]
      rfl

end Sys2Proof.Machine

/-! Proofs of the statements on 44_frame_rx.md: a line byte that accumulates or discards (R211,
R212), and the outcomes of a delimiter (R213 to R217). -/

namespace Sys2Proof.Machine

/-! ### The outcomes of a delimiter (R213 to R217) -/

/-- The comparison of R175 with the checksum field as one word. -/
theorem verifies_iff (alg : CksAlg) (d : List Byte) :
    verifies alg d = true ↔ 4 ≤ d.length ∧ checksum alg (d.take (d.length - 2)) =
      u16le (d.getD (d.length - 2) 0) (d.getD (d.length - 1) 0) := by
  rw [verificationAcceptsExactlyTheMatchingChecksum.1, ← toNat_u16le, BitVec.toNat_inj]

/-- Settles O50, by the outcomes of a completed frame. -/
theorem delimiterCountsOneOutcome : Obligations.DelimiterCountsOneOutcome := by
  intro s
  refine ⟨completeCommand (completeFrame s), rfl, ?_⟩
  rw [← accumulated]
  obtain ⟨hformat | ⟨d, hd, hlong⟩, e⟩ | ⟨d, hd, hcap, hv, e⟩ | ⟨d, hd, hcap, hv, e⟩ :=
    completeFrame_cases s <;> rw [e]
  · rw [hformat]
    exact ⟨rfl, rfl, rfl, rfl⟩
  · simp only [hd, if_pos hlong]
    exact ⟨rfl, rfl, rfl, rfl⟩
  · simp only [hd, if_neg hcap.not_gt, ← verifies_iff, hv]
    exact ⟨rfl, rfl, rfl, rfl⟩
  · simp only [hd, if_neg hcap.not_gt, ← verifies_iff, hv]
    exact ⟨rfl, rfl, rfl, rfl⟩

/-! ### The other line bytes (R211, R212) -/

/-- A write at or above the buffer's size is dropped (R60, assumption log 16). -/
theorem memRead_bufWrite (size : Nat) (m : Memory) (i : Nat) (b : Byte) (a : Nat) :
    memRead (bufWrite size m i b) a = if a = i ∧ a < size then some b else memRead m a := by
  by_cases hi : i < size
  · rw [memRead_bufWrite_of_lt m b hi]
    exact if_congr (iff_self_and.mpr fun ha => ha ▸ hi) rfl rfl
  · have hdropped : ¬ (a = i ∧ a < size) := fun ⟨ha, hlt⟩ => hi (ha ▸ hlt)
    rw [bufWrite, if_neg hi, if_neg hdropped]

/-- Settles O49, by the two outcomes of an accumulated byte. -/
theorem lineBytesAccumulateOrDiscard : Obligations.LineBytesAccumulateOrDiscard := by
  intro b s hb
  have hexec : exec (.rxByte b) s =
      .next (completeCommand (s.setRx (accumulate s.params b s.rx))) := by
    rw [← ingest_of_ne hb]
    rfl
  refine ⟨_, hexec, rfl, ?_⟩
  rw [completeCommand_rx, State.setRx_rx]
  obtain ⟨hfull, e⟩ | ⟨hroom, e⟩ := accumulate_cases s.params b s.rx <;> rw [e]
  · rw [if_pos hfull]
    rfl
  · rw [if_neg hroom]
    exact ⟨rfl, memRead_bufWrite _ _ _ b⟩

end Sys2Proof.Machine


/-! Proofs of the statements on 45_control.md: `NOP` (R230), unassigned opcodes (R231), and
`CMD_STATUS` (R232). -/

namespace Sys2Proof.Machine

/-- Settles O16: `NOP` completes and does no more, and its row ignores the immediate. -/
theorem nopOnlyClearsCmdStatus : Obligations.NopOnlyClearsCmdStatus :=
  ⟨fun _ => rfl, fun imm => decodeCommand_commandWord 0x00 imm⟩

/-! ### Assigned opcodes (R232) -/

/-- The rows of R82's table are commands; no code-byte class has a mnemonic in it (R92). -/
theorem isCommand_of_mem_opcodeMap {op : Byte} {i : Instr} (h : (op, mnemonicOf i) ∈ opcodeMap) :
    isCommand i = true := by
  cases i with
  | codeIllegal | codeDataZ1 _ | codeDataMax | codeReserved | codeZrun _ | codeDataZ2 _ =>
    simp [mnemonicOf, opcodeMap] at h
  | _ => rfl

/-- Whatever its own effect, the last thing a command does is to complete. -/
theorem exec_completes_of_isCommand {i : Instr} (h : isCommand i = true) (s : State) :
    ∃ u, exec i s = .next (completeCommand u) := by
  cases i with
  | codeIllegal | codeDataZ1 _ | codeDataMax | codeReserved | codeZrun _ | codeDataZ2 _ =>
    nomatch h
  | _ => exact ⟨_, rfl⟩

/-! ### Unassigned opcodes (R231) -/

theorem step_of_unassigned {s : State} {w : Word} {free : Nat} {inputs : List Input} {r : Reject}
    (hidle : scanActive s.scan = false) (hport : s.port = .command w free :: inputs)
    (hdecode : decodeCommand w = .error r) :
    step s = .next (illegalCommand ((s.setPort inputs).setTxqFree free)) :=
  step_of_fetch_illegal (fetch_illegal hidle hport hdecode)

/-- Settles O9: the ILLEGAL effect is one write, and every command ends in the other. -/
theorem unassignedOpcodeOnlySetsIllegal : Obligations.UnassignedOpcodeOnlySetsIllegal := by
  refine ⟨fun s w free inputs r hidle hport hdecode => step_of_unassigned hidle hport hdecode,
    fun i s hcommand => ?_⟩
  obtain ⟨u, hexec⟩ := exec_completes_of_isCommand hcommand s
  exact ⟨completeCommand u, hexec, completeCommand_cmdStatus u⟩

/-- Settles O10: an opcode of the table selects a command, which completes; every other one is
rejected, and the step has the ILLEGAL effect. -/
theorem cmdStatusReportsWhetherTheOpcodeIsAssigned :
    Obligations.CmdStatusReportsWhetherTheOpcodeIsAssigned := by
  intro s w free inputs hidle hport
  obtain ⟨hassigned, hunassigned⟩ := commandDecodingFollowsTheOpcodeMap w
  by_cases h : ∃ m : String, (BitVec.ofNat 8 (w.toNat / 256), m) ∈ opcodeMap
  · obtain ⟨m, hm⟩ := h
    obtain ⟨i, hdecode, rfl, -⟩ := hassigned m hm
    obtain ⟨u, hexec⟩ := exec_completes_of_isCommand (isCommand_of_mem_opcodeMap hm)
      ((s.setPort inputs).setTxqFree free)
    exact ⟨completeCommand u,
      (stepRunsTheDecodedCommand s w free inputs i hidle hport hdecode).trans hexec,
      fun _ => completeCommand_cmdStatus u, fun hno => absurd hm (hno _)⟩
  · exact ⟨_, step_of_unassigned hidle hport (hunassigned (not_exists.mp h)),
      fun hyes => absurd hyes h, fun _ => illegalCommand_cmdStatus _⟩

end Sys2Proof.Machine


/-! Proofs of the statements on 60_exceptions.md: there are no faults (R240), and the model is total
(R244). -/

namespace Sys2Proof.Machine

/-- What is no command is a code-byte class, which does no more than move the decode loop on. -/
theorem exec_setScan_of_not_isCommand {i : Instr} (h : isCommand i = false) (s : State) :
    ∃ scan, exec i s = .next (s.setScan scan) := by
  cases i with
  | codeIllegal | codeDataZ1 _ | codeDataMax | codeReserved | codeZrun _ | codeDataZ2 _ =>
    exact ⟨_, rfl⟩
  | _ => nomatch h

/-- Settles O11: a command completes, and a code-byte class leaves the state of the loop. -/
theorem everyInstructionCompletes : Obligations.EveryInstructionCompletes := by
  intro i s
  cases hcommand : isCommand i with
  | true =>
    obtain ⟨u, hexec⟩ := exec_completes_of_isCommand hcommand s
    exact ⟨completeCommand u, hexec⟩
  | false =>
    obtain ⟨scan, hexec⟩ := exec_setScan_of_not_isCommand hcommand s
    exact ⟨s.setScan scan, hexec⟩

end Sys2Proof.Machine


/-! Proofs of the statements on 70_reset_and_hazards.md: the reset values and the reset event (R270,
R271, R273), and that commands of different units may run in either order (R278). -/

namespace Sys2Proof.Machine

/-! ### Reset (R270, R271, R273) -/

/-- The rows of R271: of the registers only `CKS` resets to another value than 0. -/
theorem readReg_resetEvent (s : State) : ∀ n ∈ registerNumbers, readReg (resetEvent s) n =
    if n = 0x08 then some (s.params.cksAlg.initVal.setWidth 32) else some 0 :=
  List.map_inj_left.mp ((registerReadsFollowTheRegisterMap (resetEvent s)).1.trans rfl)

theorem bufRead_resetEvent (s : State) (id : BufferId) (i : Nat) :
    bufRead (resetEvent s) id i = none := by
  cases id with
  | encOut => exact bufRead_encOut_of_invalid rfl i
  | decOut => exact bufRead_decOut_of_invalid rfl i
  | txPay => rfl
  | rxBuf => rfl

theorem resetEvent_reset : resetEvent State.reset = State.reset := rfl

/-- Settles O12: a reset event changes nothing right after reset. -/
theorem resetLeavesTheSpecifiedValues : Obligations.ResetLeavesTheSpecifiedValues := by
  unfold Obligations.ResetLeavesTheSpecifiedValues
  rw [← resetEvent_reset]
  exact ⟨readReg_resetEvent State.reset, rfl, rfl, rfl, fun _ => ⟨rfl, rfl, rfl, rfl⟩,
    bufRead_resetEvent State.reset⟩

/-- Settles O13: the step takes the event from the port and has its effect. -/
theorem resetEventRestoresTheResetValues : Obligations.ResetEventRestoresTheResetValues := by
  intro s inputs hidle hport
  exact ⟨resetEvent (s.setPort inputs), step_of_fetch_reset (fetch_reset hidle hport),
    readReg_resetEvent (s.setPort inputs), rfl, rfl, fun _ => ⟨rfl, rfl, rfl, rfl⟩,
    bufRead_resetEvent (s.setPort inputs), rfl, rfl, rfl, rfl, rfl⟩

/-! ### The part of the state that a unit owns (R278) -/

/-- What a unit can see: its own state with its outputs, the parameters, and the inputs. The other
units are as right after reset, and so is `CMD_STATUS`, which no unit owns. -/
def unitView (u : BlockUnit) (s : State) : State :=
  let shared := { State.reset with params := s.params, port := s.port, txqFree := s.txqFree }
  match u with
  | .control => shared
  | .encoder => { shared with enc := s.enc }
  | .decoder => { shared with dec := s.dec }
  | .checksum => { shared with cks := s.cks }
  | .outbound => { shared with tx := s.tx, txOut := s.txOut }
  | .inbound => { shared with rx := s.rx, deliveries := s.deliveries }
  | .codeBytes => { shared with scan := s.scan }

/-- The units together are the whole state, but for `CMD_STATUS`. -/
theorem eq_of_unitView_eq {s s' : State} (hunits : ∀ u, unitView u s = unitView u s')
    (hcmd : s.cmdStatus = s'.cmdStatus) : s = s' := by
  have field {α : Type} (f : State → α) (u : BlockUnit) :
      f (unitView u s) = f (unitView u s') := congrArg f (hunits u)
  cases s
  cases s'
  rw [State.mk.injEq]
  exact ⟨hcmd, field State.enc .encoder, field State.dec .decoder, field State.cks .checksum,
    field State.tx .outbound, field State.rx .inbound, field State.params .control,
    field State.port .control, field State.txqFree .control, field State.txOut .outbound,
    field State.deliveries .inbound, field State.scan .codeBytes⟩

/-- The frame: the units other than the instruction's own see no change. -/
theorem unitView_of_exec_of_ne {i : Instr} {u : BlockUnit} (hne : unitOf i ≠ u) {s t : State}
    (h : exec i s = .next t) : unitView u t = unitView u s := by
  obtain ⟨t', h', henc, hdec, hcks, htx, hrx, hscan, hparams, hport, htxqFree⟩ :=
    unitsKeepToTheirOwnState i s
  obtain rfl : t = t' := by simpa [h] using h'
  cases u with
  | control => simp [unitView, hparams, hport, htxqFree]
  | encoder => simp [unitView, hparams, hport, htxqFree, henc hne]
  | decoder => simp [unitView, hparams, hport, htxqFree, hdec hne]
  | checksum => simp [unitView, hparams, hport, htxqFree, hcks hne]
  | outbound => simp [unitView, hparams, hport, htxqFree, htx hne]
  | inbound => simp [unitView, hparams, hport, htxqFree, hrx hne]
  | codeBytes => simp [unitView, hparams, hport, htxqFree, hscan hne]

/-! ### A unit's state after an instruction of its own depends on what the unit sees -/

theorem unitView_sendStaged (s : State) :
    unitView .outbound (sendStaged (unitView .outbound s)) = unitView .outbound (sendStaged s) := by
  simp only [sendStaged, apply_ite (unitView .outbound)]
  rfl

theorem unitView_completeFrame (s : State) :
    unitView .inbound (completeFrame (unitView .inbound s)) =
      unitView .inbound (completeFrame s) := by
  simp only [completeFrame, show (unitView .inbound s).rx = s.rx from rfl,
    show (unitView .inbound s).params = s.params from rfl]
  split <;> rfl

theorem unitView_ingest (b : Byte) (s : State) :
    unitView .inbound (ingest b (unitView .inbound s)) = unitView .inbound (ingest b s) := by
  by_cases hb : b = 0
  · rw [hb]
    exact unitView_completeFrame s
  · rw [ingest_of_ne hb, ingest_of_ne hb]
    rfl

/-- Besides `TX_SEND` and `RX_BYTE` every meaning is one write of its unit, computed from what the
unit sees. -/
theorem unitView_exec_unitView {i : Instr} {s t v : State} (h : exec i s = .next t)
    (hview : exec i (unitView (unitOf i) s) = .next v) :
    unitView (unitOf i) v = unitView (unitOf i) t := by
  cases i <;> cases h <;> cases hview
  case txSend => exact unitView_sendStaged s
  case rxByte b => exact unitView_ingest b s
  all_goals rfl

/-- Two states that look alike to a unit still do so after one of its instructions. -/
theorem unitView_exec_congr {i : Instr} {s s' t t' : State}
    (hview : unitView (unitOf i) s = unitView (unitOf i) s') (h : exec i s = .next t)
    (h' : exec i s' = .next t') : unitView (unitOf i) t = unitView (unitOf i) t' := by
  obtain ⟨v, hv⟩ := everyInstructionCompletes i (unitView (unitOf i) s)
  have hv' : exec i (unitView (unitOf i) s') = .next v := hview ▸ hv
  calc unitView (unitOf i) t
    _ = unitView (unitOf i) v := (unitView_exec_unitView h hv).symm
    _ = unitView (unitOf i) t' := unitView_exec_unitView h' hv'

/-! ### Two instructions in either order -/

/-- Every command ends with `CMD_STATUS` at OK, and no code byte writes it (R232). -/
theorem cmdStatus_of_exec {i : Instr} {s t : State} (h : exec i s = .next t) :
    t.cmdStatus = if unitOf i = .codeBytes then s.cmdStatus else .ok := by
  cases i <;> cases h <;> rfl

section
variable {i j : Instr} {s a b t t' : State}

/-- The unit of `i` ends in the state that `i` alone gives it, whether `j` of another unit runs
after it or before. -/
theorem unitView_own_of_either_order (hne : unitOf i ≠ unitOf j)
    (hi : exec i s = .next a) (hij : exec j a = .next t)
    (hj : exec j s = .next b) (hji : exec i b = .next t') :
    unitView (unitOf i) t = unitView (unitOf i) t' :=
  calc unitView (unitOf i) t
    _ = unitView (unitOf i) a := unitView_of_exec_of_ne hne.symm hij
    _ = unitView (unitOf i) t' :=
      unitView_exec_congr (unitView_of_exec_of_ne hne.symm hj).symm hi hji

theorem unitView_of_either_order (hne : unitOf i ≠ unitOf j)
    (hi : exec i s = .next a) (hij : exec j a = .next t)
    (hj : exec j s = .next b) (hji : exec i b = .next t') (u : BlockUnit) :
    unitView u t = unitView u t' := by
  by_cases hui : unitOf i = u
  · subst hui
    exact unitView_own_of_either_order hne hi hij hj hji
  by_cases huj : unitOf j = u
  · subst huj
    exact (unitView_own_of_either_order hne.symm hj hji hi hij).symm
  calc unitView u t
    _ = unitView u a := unitView_of_exec_of_ne huj hij
    _ = unitView u s := unitView_of_exec_of_ne hui hi
    _ = unitView u b := (unitView_of_exec_of_ne huj hj).symm
    _ = unitView u t' := (unitView_of_exec_of_ne hui hji).symm

theorem cmdStatus_of_either_order (hne : unitOf i ≠ unitOf j)
    (hi : exec i s = .next a) (hij : exec j a = .next t)
    (hj : exec j s = .next b) (hji : exec i b = .next t') : t.cmdStatus = t'.cmdStatus := by
  rw [cmdStatus_of_exec hij, cmdStatus_of_exec hi, cmdStatus_of_exec hji, cmdStatus_of_exec hj]
  split_ifs with hcj hci
  · exact absurd (hci.trans hcj.symm) hne
  all_goals rfl

end

/-- Settles O59: after either order every unit is in the same state, and `CMD_STATUS` is too. -/
theorem commandsOfDifferentUnitsCommute : Obligations.CommandsOfDifferentUnitsCommute := by
  intro i j s hne
  obtain ⟨a, hi⟩ := everyInstructionCompletes i s
  obtain ⟨b, hj⟩ := everyInstructionCompletes j s
  obtain ⟨t, hij⟩ := everyInstructionCompletes j a
  obtain ⟨t', hji⟩ := everyInstructionCompletes i b
  obtain rfl : t = t' := eq_of_unitView_eq (unitView_of_either_order hne hi hij hj hji)
    (cmdStatus_of_either_order hne hi hij hj hji)
  exact ⟨t, by simp [execAll, hi, hij], by simp [execAll, hj, hji]⟩

end Sys2Proof.Machine
